-- ==== Sys2Proof/Word.lean ====
section
/-! DEFINITION. The words of the block: what the spec treats as bits. Everything is unsigned (00_scope.md R6). -/

namespace Sys2Proof

/-- A byte of the input, and an entry of the tone-table ROM (20_memory.md R54, R56). -/
abbrev Byte := BitVec 8

/-- Format SAMPLE: an 8-bit unsigned amplitude (30_encoding.md R82). -/
abbrev Sample := BitVec 8

/-- Format TONE as a bit: 1 is Mark, 0 is Space (30_encoding.md R83). -/
abbrev ToneBit := BitVec 1

/-- Format PHASE: the code of the phase register (30_encoding.md R84). -/
abbrev PhaseCode := BitVec 3

/-- Format ROMADDR: the tone bit above the sample index (30_encoding.md R85). -/
abbrev RomAddr := BitVec 5

/-- Format TOKEN: bit 8 is `eof`, bits 7 to 0 are `data` (30_encoding.md R81). -/
abbrev TokenWord := BitVec 9

end Sys2Proof
end

