-- ==== Sys2Proof/Config.lean ====
section
/-! DEFINITION. What is fixed for this hardware: the constants of 00_scope.md R5, the tone-table ROM of 20_memory.md R52, and the one free value (log 7). -/

namespace Sys2Proof.Config

/-- Samples in one leader: one second at 11025 Hz (00_scope.md R5, `LEADER_LEN`). -/
abbrev leaderLen : Nat := 11025

/-- The value of every leader sample (00_scope.md R5, `SILENCE`). -/
abbrev silence : Sample := 0x40

/-- The sync byte (00_scope.md R5, `SYNC`). -/
abbrev syncByte : Byte := 0x3C

/-- Bytes of the name record (00_scope.md R5, `NAME_LEN`). -/
abbrev nameLen : Nat := 18

/-- Samples of a Mark cell (00_scope.md R5, `MARK_LEN`). -/
abbrev markLen : Nat := 5

/-- Samples of a Space cell (00_scope.md R5, `SPACE_LEN`). -/
abbrev spaceLen : Nat := 9

/-- The samples of a mark cell (00_scope.md R5, `MARK_TABLE`). -/
def markTable : List Sample := [0x80, 0xFF, 0x80, 0x00, 0x80]

/-- The samples of a space cell (00_scope.md R5, `SPACE_TABLE`). -/
def spaceTable : List Sample := [0x80, 0xDA, 0xFF, 0xDA, 0x80, 0x25, 0x00, 0x25, 0x80]

/-- The tone-table ROM, row by row as 20_memory.md R52 lists it: the Space table at 0x00 to 0x08, the Mark
table at 0x10 to 0x14. The 18 other addresses are holes (R53): no row, so no value. -/
def rom : List Host.Cell :=
  [(0x00, 0x80), (0x01, 0xDA), (0x02, 0xFF), (0x03, 0xDA), (0x04, 0x80), (0x05, 0x25), (0x06, 0x00),
   (0x07, 0x25), (0x08, 0x80), (0x10, 0x80), (0x11, 0xFF), (0x12, 0x80), (0x13, 0x00), (0x14, 0x80)]

/-- The level of `out_data` in a cycle in which no sample is presented, by the cycle's number: the spec leaves
it unspecified (10_state.md R35, 93_implementation_defined.md U4), so it has no body (log 7). -/
opaque freeOutData : Nat → Sample

end Sys2Proof.Config
end

