-- ==== Sys2Proof/Syntax.lean ====
section
/-! DEFINITION. The twelve operations of 30_encoding.md R87 and the names their operands range over. -/

namespace Sys2Proof

/-- The tone select: a closed two-value type (30_encoding.md R83). -/
inductive Tone where
  | space
  | mark
  deriving DecidableEq, Repr

/-- The states of the frame sequencer, in the order of the frame (30_encoding.md R84). -/
inductive Phase where
  | leader1
  | header
  | leader2
  | body
  | done
  deriving DecidableEq, Repr

/-- Which of the two leaders EMIT_LEADER runs in: the table's field `p`, bit 1 of the phase code (log 11). -/
inductive Leader where
  | first
  | second
  deriving DecidableEq, Repr

/-- A token of the input stream (00_scope.md R9, 20_memory.md R58). -/
inductive Token where
  | byte (b : Byte)
  | eof
  deriving DecidableEq, Repr

/-- What a token on the input port is to the frame sequencer (30_encoding.md R87, R91). -/
inductive TokenOp where
  | byte (d : Byte)
  | sync
  | eof
  deriving DecidableEq, Repr

/-- The block's operations, one constructor per row of spec/opcode_table.json (30_encoding.md R87). -/
inductive Instr where
  /-- EMIT_SPACE (40_tone_synthesizer.md R111). -/
  | emitSpace
  /-- EMIT_MARK (40_tone_synthesizer.md R110). -/
  | emitMark
  /-- ENCODE_BYTE (41_bit_encoder.md R120); `b` is the byte being sent. -/
  | encodeByte (b : Byte)
  /-- EMIT_LEADER (42_leader_generator.md R130). -/
  | emitLeader (p : Leader)
  /-- PH_LEADER1 (43_frame_sequencer.md R141). -/
  | phLeader1
  /-- PH_HEADER (43_frame_sequencer.md R142, R144). -/
  | phHeader
  /-- PH_LEADER2 (43_frame_sequencer.md R147). -/
  | phLeader2
  /-- PH_BODY (43_frame_sequencer.md R148). -/
  | phBody
  /-- PH_DONE (43_frame_sequencer.md R150). -/
  | phDone
  /-- TOK_BYTE (43_frame_sequencer.md R142, R144, R148); `d` is the byte pulled. -/
  | tokByte (d : Byte)
  /-- TOK_SYNC (43_frame_sequencer.md R143). -/
  | tokSync
  /-- TOK_EOF (43_frame_sequencer.md R145, R149); the ignored `in_data` is no operand (log 12). -/
  | tokEof
  deriving DecidableEq, Repr

/-- Why the decoder refuses a word. -/
inductive DecodeError where
  /-- A bit above the format's width is set. -/
  | strayBits (w : Nat)
  /-- A phase code that 30_encoding.md R84 reserves: 5, 6 or 7. -/
  | reservedPhase (code : PhaseCode)
  /-- A phase code that does not select the leader generator: it is no 0p0 (spec/opcode_table.json, EMIT_LEADER). -/
  | notALeader (code : PhaseCode)
  deriving DecidableEq, Repr

end Sys2Proof
end

