-- ==== Sys2Proof/WellFormed.lean ====
section
/-! DEFINITION. Where an operation's word is read, in which format, and which operations can be read there. -/

namespace Sys2Proof

/-- The formats of 30_encoding.md R81 to R84 and the BYTE8 of R87: the table's column `format`. -/
inductive Format where
  | tone
  | byte8
  | phase
  | token
  deriving DecidableEq, Repr

/-- How many bits a word of the format has (30_encoding.md R81 to R84, R87). -/
def Format.width : Format → Nat
  | .tone => 1
  | .byte8 => 8
  | .phase => 3
  | .token => 9

/-- The place a word is read from. The phase register is read by two units, the leader generator and the frame
sequencer; a token is read with the one bit of context that 30_encoding.md R91 gives it, whether the sync byte is
still being searched for (`phase` = HEADER and `sync_found` = 0) (log 9). -/
inductive Site where
  | toneSelect
  | byteRegister
  | leaderSelect
  | phaseRegister
  | tokenPort (searching : Bool)
  deriving DecidableEq, Repr

def Site.format : Site → Format
  | .toneSelect => .tone
  | .byteRegister => .byte8
  | .leaderSelect => .phase
  | .phaseRegister => .phase
  | .tokenPort _ => .token

/-- The table's column `format`. -/
def Instr.format : Instr → Format
  | .emitSpace => .tone
  | .emitMark => .tone
  | .encodeByte _ => .byte8
  | .emitLeader _ => .phase
  | .phLeader1 => .phase
  | .phHeader => .phase
  | .phLeader2 => .phase
  | .phBody => .phase
  | .phDone => .phase
  | .tokByte _ => .token
  | .tokSync => .token
  | .tokEof => .token

/-- The operation can be read at the site. The two cases that are more than a match of kinds are 30_encoding.md
R91: TOK_SYNC exists only while the sync byte is searched for, and there the byte 0x3C is no TOK_BYTE. -/
def Instr.wellFormedAt (site : Site) : Instr → Bool
  | .emitSpace => site == .toneSelect
  | .emitMark => site == .toneSelect
  | .encodeByte _ => site == .byteRegister
  | .emitLeader _ => site == .leaderSelect
  | .phLeader1 => site == .phaseRegister
  | .phHeader => site == .phaseRegister
  | .phLeader2 => site == .phaseRegister
  | .phBody => site == .phaseRegister
  | .phDone => site == .phaseRegister
  | .tokByte d => site == .tokenPort false || (site == .tokenPort true && d != Config.syncByte)
  | .tokSync => site == .tokenPort true
  | .tokEof => site.format == .token

end Sys2Proof
end

