-- ==== Sys2Proof/Decode.lean ====
section
/-! DEFINITION. The decoder, total on any word at any site and rejecting by name, and after it the encoder (30_encoding.md R81 to R91). -/

namespace Sys2Proof

/-! ## The formats -/

/-- Format TONE: 1 is Mark, 0 is Space (30_encoding.md R83). -/
def decodeTone (t : ToneBit) : Tone := if t = 1 then .mark else .space

/-- The table of phase codes (30_encoding.md R84). -/
def phaseCodes : List (PhaseCode × Phase) :=
  [(0b000, .leader1), (0b001, .header), (0b010, .leader2), (0b011, .body), (0b100, .done)]

/-- Format PHASE; the codes 5, 6 and 7 are reserved (30_encoding.md R84, R88). -/
def decodePhase (c : PhaseCode) : Option Phase := phaseCodes.lookup c

/-- Which leader a phase code selects, if one: the pattern 0p0 (30_encoding.md R87, EMIT_LEADER). -/
def decodeLeader (c : PhaseCode) : Option Leader :=
  if c &&& 0b101 = 0 then some (if c &&& 0b010 = 0 then .first else .second) else none

/-- The field `eof` of a TOKEN word (30_encoding.md R81). -/
def tokenEofBit (t : TokenWord) : Bool := t.getLsbD 8

/-- The field `data` of a TOKEN word (30_encoding.md R81). -/
def tokenData (t : TokenWord) : Byte := t.extractLsb' 0 8

/-- Format TOKEN as the stream's token: with `eof` = 1 the data is ignored (30_encoding.md R81, R88). -/
def decodeToken (t : TokenWord) : Token :=
  if tokenEofBit t then .eof else .byte (tokenData t)

/-- What the token is to the frame sequencer: 0x3C is the sync byte only while it is searched for (30_encoding.md R91). -/
def decodeTokenOp (searching : Bool) (t : TokenWord) : TokenOp :=
  match decodeToken t with
  | .eof => .eof
  | .byte d => if searching && d == Config.syncByte then .sync else .byte d

/-! ## The decoder -/

def Tone.toInstr : Tone → Instr
  | .space => .emitSpace
  | .mark => .emitMark

def Phase.toInstr : Phase → Instr
  | .leader1 => .phLeader1
  | .header => .phHeader
  | .leader2 => .phLeader2
  | .body => .phBody
  | .done => .phDone

def TokenOp.toInstr : TokenOp → Instr
  | .byte d => .tokByte d
  | .sync => .tokSync
  | .eof => .tokEof

/-- A PHASE word as the frame sequencer reads it. -/
def decodePhaseWord (c : PhaseCode) : Except DecodeError Instr :=
  match decodePhase c with
  | some p => .ok p.toInstr
  | none => .error (.reservedPhase c)

/-- A PHASE word as the leader generator reads it. -/
def decodeLeaderWord (c : PhaseCode) : Except DecodeError Instr :=
  match decodeLeader c with
  | some p => .ok (.emitLeader p)
  | none => .error (if (decodePhase c).isSome then .notALeader c else .reservedPhase c)

/-- The operation that the word `w` is at the site, for any number `w` (30_encoding.md R87, R88). -/
def decode (site : Site) (w : Nat) : Except DecodeError Instr :=
  if 2 ^ site.format.width ≤ w then .error (.strayBits w)
  else
    match site with
    | .toneSelect => .ok (decodeTone (BitVec.ofNat 1 w)).toInstr
    | .byteRegister => .ok (.encodeByte (BitVec.ofNat 8 w))
    | .leaderSelect => decodeLeaderWord (BitVec.ofNat 3 w)
    | .phaseRegister => decodePhaseWord (BitVec.ofNat 3 w)
    | .tokenPort searching => .ok (decodeTokenOp searching (BitVec.ofNat 9 w)).toInstr

/-! ## The encoder -/

/-- The tone bit (30_encoding.md R83). -/
def Tone.bit : Tone → ToneBit
  | .space => 0
  | .mark => 1

/-- The phase's code (30_encoding.md R84). -/
def Phase.code : Phase → PhaseCode
  | .leader1 => 0b000
  | .header => 0b001
  | .leader2 => 0b010
  | .body => 0b011
  | .done => 0b100

/-- The phase a leader is pushed in (42_leader_generator.md R130). -/
def Leader.phase : Leader → Phase
  | .first => .leader1
  | .second => .leader2

/-- Format TOKEN from its two fields (30_encoding.md R81). -/
def tokenWord (eof : Bool) (data : Byte) : TokenWord := BitVec.ofBool eof ++ data

/-- The token's word; EOF is written with data 0x00 (30_encoding.md R81, 95_test_vectors.md section 5). -/
def Token.word : Token → TokenWord
  | .byte b => tokenWord false b
  | .eof => tokenWord true 0x00

/-- The operation's word, from the table's patterns (30_encoding.md R87, spec/opcode_table.json). -/
def encode : Instr → Nat
  | .emitSpace => Tone.space.bit.toNat
  | .emitMark => Tone.mark.bit.toNat
  | .encodeByte b => b.toNat
  | .emitLeader p => p.phase.code.toNat
  | .phLeader1 => Phase.leader1.code.toNat
  | .phHeader => Phase.header.code.toNat
  | .phLeader2 => Phase.leader2.code.toNat
  | .phBody => Phase.body.code.toNat
  | .phDone => Phase.done.code.toNat
  | .tokByte d => (Token.byte d).word.toNat
  | .tokSync => (Token.byte Config.syncByte).word.toNat
  | .tokEof => Token.eof.word.toNat

/-! ## Words of the operation table without a site -/

/-- The site at which a word of the operation table is read when only its bits are known. The rows' formats share
bit patterns, so a size of one byte does not settle the format: then the rows are taken from the top of the table
(30_encoding.md R87), the tone's before the phase's, and the row that matches every byte, ENCODE_BYTE, last
(log 8). A token is read as the first token after reset is, while the sync byte is searched for. -/
def tableSite (nbits w : Nat) : Option Site :=
  if nbits = 1 then some .toneSelect
  else if nbits = 3 then some .phaseRegister
  else if nbits = 8 then
    if w < 2 then some .toneSelect
    else if w < 5 then some .phaseRegister
    else some .byteRegister
  else if nbits = 9 ∨ nbits = 16 then some (.tokenPort true)
  else none

/-- The operation the decoder reads from a word of the operation table (log 8). -/
def decodeTableWord (nbits w : Nat) : Option Instr :=
  match tableSite nbits w with
  | none => none
  | some site =>
    match decode site w with
    | .ok i => some i
    | .error _ => none

end Sys2Proof
end

