-- ==== Sys2Proof/Machine/State.lean ====
section
/-! DEFINITION. The machine's state: the nine registers of 10_state.md R20, the levels on its input ports, and the observer's record. -/

namespace Sys2Proof.Machine

/-- The nine registers of 10_state.md R20. The phase is an enumeration and each counter is bounded by its used
range, as 92_eei_decisions.md D12 and D21 ask (log 6). DESIGN CHOICE (log 20): R20's total of 35 bits is not the sum of
its table's widths, which is 40, and the model follows the table. -/
structure Regs where
  /-- `phase[2:0]` (R21). -/
  phase : Phase
  /-- `lcnt[13:0]`, 0 to 11024 (R22). -/
  lcnt : Fin Config.leaderLen
  /-- `have_byte` (R23). -/
  haveByte : Bool
  /-- `byte_reg[7:0]` (R24). -/
  byteReg : Byte
  /-- `bit_idx[2:0]`, 0 to 7 (R25). -/
  bitIdx : Fin 8
  /-- `samp_idx[3:0]`, 0 to 8 (R26). -/
  sampIdx : Fin Config.spaceLen
  /-- `sync_found` (R27). -/
  syncFound : Bool
  /-- `name_cnt[4:0]`, 0 to 18 (R28). -/
  nameCnt : Fin (Config.nameLen + 1)
  /-- `eof_seen` (R29). -/
  eofSeen : Bool
  deriving DecidableEq, Repr

/-- The registers after reset (10_state.md R38). -/
def Regs.reset : Regs where
  phase := .leader1
  lcnt := 0
  haveByte := false
  byteReg := 0x00
  bitIdx := 0
  sampIdx := 0
  syncFound := false
  nameCnt := 0
  eofSeen := false

/-- The levels on the input ports in one cycle (10_state.md R32); `clk` is the step itself. -/
structure Pins where
  rst : Bool
  inValid : Bool
  inEof : Bool
  inData : Byte
  outReady : Bool
  deriving DecidableEq, Repr

/-- Nothing presented, the sink not ready, no reset (log 3). -/
def Pins.idle : Pins where
  rst := false
  inValid := false
  inEof := false
  inData := 0x00
  outReady := false

/-- A transfer (44_top_level.md R171: "`Pull(token)`, `Push(sample)`"). -/
inductive Event where
  | pull (t : Token)
  | push (x : Sample)
  deriving DecidableEq, Repr

/-- Why the model stops. -/
inductive Fault where
  /-- Raised by a read of the tone-table ROM at an address that R52 gives no entry (20_memory.md R53: "`RomRead` of
  a hole is a fault of the model"). Safe: no value is invented. Not reachable (10_state.md R39 I5). -/
  | romHole (a : RomAddr)
  deriving DecidableEq, Repr

/-- Why the model has no meaning to give. -/
inductive Refusal where
  /-- Raised by an arm of `exec` that has no meaning yet; no arm of this model does. Safe. -/
  | notModelled (mnemonic : String)
  /-- Raised by an operation that is asked for in a state which does not select it (30_encoding.md R87): the block
  then performs another one. Never raised by `step`. Safe (log 2). -/
  | notSelected
  /-- Raised by TOK_BYTE for a nineteenth name byte, where `name_cnt` would leave its used range
  (93_implementation_defined.md U3: "refuse"). Not reachable (10_state.md R39 I8). Safe (log 6). -/
  | nameCountPastEnd
  /-- Raised by `step` if the decoder refused the code of the phase register. It never does, because the register
  is an enumeration (30_encoding.md R88). Safe. -/
  | undecodable (e : DecodeError)
  deriving DecidableEq, Repr

/-- The state of the model. Only `regs` is the block's (10_state.md R20); the rest is what R37 calls parameters of
the step and what an observation records, held here because `step` takes a state alone (log 3). -/
structure State where
  /-- The nine registers. -/
  regs : Regs
  /-- The input ports' levels in the present cycle. -/
  pins : Pins
  /-- Their levels in the cycles to come, the next one first. -/
  coming : List Pins
  /-- The transfers made so far, the oldest first. -/
  history : List Event
  /-- The number of clock edges so far; only the free value of `out_data` reads it (log 7). -/
  cycle : Nat
  deriving DecidableEq, Repr

/-- The machine right after reset (10_state.md R38, 70_reset_and_hazards.md R211), with idle ports and nothing observed. -/
def State.reset : State where
  regs := Regs.reset
  pins := Pins.idle
  coming := []
  history := []
  cycle := 0

end Sys2Proof.Machine
end

