-- ==== Sys2Proof/Machine/Operands.lean ====
section
/-! DEFINITION. The derived signals of 10_state.md R31, the assembled operands of 30_encoding.md R86 and the presented token. -/

namespace Sys2Proof.Machine

/-- `in_leader` (10_state.md R31). -/
def inLeader (r : Regs) : Bool := r.phase == .leader1 || r.phase == .leader2

/-- `in_data_phase` (10_state.md R31). -/
def inDataPhase (r : Regs) : Bool := r.phase == .header || r.phase == .body

/-- `byte_reg[bit_idx]`, bit 0 the least significant (30_encoding.md R86, 20_memory.md R56). -/
def toneBit (r : Regs) : ToneBit := BitVec.ofBool (r.byteReg.getLsbD r.bitIdx.val)

/-- `tone` (10_state.md R31, 30_encoding.md R83). -/
def tone (r : Regs) : Tone := decodeTone (toneBit r)

/-- `cell_len`: 5 for Mark, 9 for Space (10_state.md R31, 30_encoding.md R86). -/
def cellLen : Tone → Nat
  | .mark => Config.markLen
  | .space => Config.spaceLen

/-- `last_samp` of a cell of the given tone (10_state.md R31). -/
def lastSamp (t : Tone) (r : Regs) : Bool := r.sampIdx.val == cellLen t - 1

/-- `last_bit` (10_state.md R31). -/
def lastBit (r : Regs) : Bool := r.bitIdx.val == 7

/-- `last_lead` (10_state.md R31). -/
def lastLead (r : Regs) : Bool := r.lcnt.val == Config.leaderLen - 1

/-- `{tone, samp_idx}` (30_encoding.md R85). -/
def romAddr (t : Tone) (sampIdx : Fin Config.spaceLen) : RomAddr := t.bit ++ BitVec.ofNat 4 sampIdx.val

/-- The TOKEN word on the input port (30_encoding.md R81). -/
def portWord (p : Pins) : TokenWord := tokenWord p.inEof p.inData

/-- The token on the input port: "`EOF` if `in_eof = 1` and `BYTE in_data` otherwise" (20_memory.md R58). -/
def portToken (p : Pins) : Token := decodeToken (portWord p)

end Sys2Proof.Machine
end

