-- ==== Sys2Proof/Machine/Flags.lean ====
section
/-! DEFINITION. The three flags, what is computed from them, and their writes (10_state.md R23, R27, R29, R40). -/

namespace Sys2Proof.Machine

/-- The sync byte is being searched for: `phase` = HEADER and `sync_found` = 0 (30_encoding.md R91). -/
def searching (r : Regs) : Bool := r.phase == .header && !r.syncFound

/-- The name record is being read: `phase` = HEADER and `sync_found` = 1 (43_frame_sequencer.md R144). -/
def namingPhase (r : Regs) : Bool := r.phase == .header && r.syncFound

/-- `hdr_full` (10_state.md R31). -/
def hdrFull (r : Regs) : Bool := r.syncFound && r.nameCnt.val == Config.nameLen

/-- `have_byte <- 1` (10_state.md R23). -/
def setHaveByte (r : Regs) : Regs := { r with haveByte := true }

/-- `have_byte <- 0` (10_state.md R23). -/
def clearHaveByte (r : Regs) : Regs := { r with haveByte := false }

/-- `sync_found <- 1` (10_state.md R27). -/
def setSyncFound (r : Regs) : Regs := { r with syncFound := true }

/-- `eof_seen <- 1` (10_state.md R29). -/
def setEofSeen (r : Regs) : Regs := { r with eofSeen := true }

end Sys2Proof.Machine
end

