-- ==== Sys2Proof/Machine/Ops.lean ====
section
/-! DEFINITION. The operations the meanings share: the ROM read, the output ports, pull and push, the counters, reset. -/

namespace Sys2Proof.Machine

/-! ## The tone-table ROM -/

/-- `RomRead(a)`; a hole has no value to read (20_memory.md R53, R54; log 5). -/
def romRead (a : RomAddr) : Except Fault Sample :=
  match Config.rom.lookup a.toNat with
  | some x => .ok x
  | none => .error (.romHole a)

/-! ## The output ports -/

/-- `in_ready` (10_state.md R33). -/
def inReady (s : State) : Bool := !s.pins.rst && inDataPhase s.regs && !s.regs.haveByte

/-- `out_valid` (10_state.md R34). -/
def outValid (s : State) : Bool := !s.pins.rst && (inLeader s.regs || s.regs.haveByte)

/-- `done` (10_state.md R36). -/
def done (s : State) : Bool := !s.pins.rst && s.regs.phase == .done

/-- `out_data` (10_state.md R35). Where the spec gives no value it is the free one (log 7). -/
def outData (s : State) : Except Fault Sample :=
  if outValid s && inLeader s.regs then .ok Config.silence
  else if outValid s && inDataPhase s.regs then romRead (romAddr (tone s.regs) s.regs.sampIdx)
  else .ok (Config.freeOutData s.cycle)

/-- `in_xfer`: an input transfer happens in this cycle (10_state.md R33, 20_memory.md R58). -/
def inXfer (s : State) : Bool := inReady s && s.pins.inValid

/-- `out_xfer`: an output transfer happens in this cycle (10_state.md R34, 20_memory.md R59). -/
def outXfer (s : State) : Bool := outValid s && s.pins.outReady

/-- What the token on the input port is to the frame sequencer (30_encoding.md R87, R91). -/
def portOp (s : State) : TokenOp := decodeTokenOp (searching s.regs) (portWord s.pins)

/-! ## Which operations a state selects -/

/-- The column "selected when" of 30_encoding.md R87, operation by operation. ENCODE_BYTE's condition takes in the
data phase that its cells need (40_tone_synthesizer.md R112; log 13). -/
def selected (i : Instr) (s : State) : Bool :=
  match i with
  | .emitSpace => inDataPhase s.regs && s.regs.haveByte && tone s.regs == .space
  | .emitMark => inDataPhase s.regs && s.regs.haveByte && tone s.regs == .mark
  | .encodeByte b => inDataPhase s.regs && s.regs.haveByte && s.regs.byteReg == b
  | .emitLeader p => s.regs.phase == p.phase
  | .phLeader1 => s.regs.phase == .leader1
  | .phHeader => s.regs.phase == .header
  | .phLeader2 => s.regs.phase == .leader2
  | .phBody => s.regs.phase == .body
  | .phDone => s.regs.phase == .done
  | .tokByte d => inXfer s && portOp s == .byte d
  | .tokSync => inXfer s && portOp s == .sync
  | .tokEof => inXfer s && portOp s == .eof

/-! ## Reset -/

/-- A clock edge with `rst = 1`: "every register takes its reset value, whatever the state and the other inputs
were" (70_reset_and_hazards.md R210). What was transferred stays transferred (60_exceptions.md R199). The block
has no exception and no return from one (R190, R194, R195): this is its only other transfer of control. -/
def takeReset (s : State) : State := { s with regs := Regs.reset }

/-- The edge of an operation: reset wins over everything (60_exceptions.md R193; log 10); without it an operation
that the state does not select has no meaning (log 2). -/
def clocked (isSelected : Bool) (s : State) (edge : Host.Outcome State Fault Refusal) :
    Host.Outcome State Fault Refusal :=
  if s.pins.rst then .next (takeReset s)
  else if isSelected then edge
  else .refused .notSelected

/-! ## Pull and push -/

/-- Replace the registers and record a transfer: all the writes of one clock edge (00_scope.md R7). -/
def State.transfer (s : State) (e : Event) (r : Regs) : State :=
  { s with regs := r, history := s.history ++ [e] }

/-- `Pull`: the input transfer of the presented token (20_memory.md R58). -/
def pull (s : State) (r : Regs) : State := s.transfer (.pull (portToken s.pins)) r

/-- Present a sample: at an output transfer it is pushed and the registers advance, otherwise the block waits and
nothing changes (20_memory.md R59). -/
def present (x : Except Fault Sample) (advance : Regs → Regs) (s : State) : Host.Outcome State Fault Refusal :=
  match x with
  | .error f => .fault f
  | .ok x => if outXfer s then .next (s.transfer (.push x) (advance s.regs)) else .next s

/-! ## The counters -/

/-- The end of a byte: the last sample of its eighth cell has been pushed, and a full header gives way to the
second leader in the same edge (41_bit_encoder.md R122, 43_frame_sequencer.md R146). -/
def endByte (r : Regs) : Regs :=
  clearHaveByte
    { r with
      sampIdx := 0
      bitIdx := 0
      phase := if r.phase == .header && hdrFull r then .leader2 else r.phase }

/-- The end of a cell: the bit selector advances, or the byte ends (41_bit_encoder.md R121, R122). -/
def endCell (r : Regs) : Regs :=
  if lastBit r then endByte r else { r with sampIdx := 0, bitIdx := r.bitIdx + 1 }

/-- The sample counter at an output transfer of a cell of the given tone (40_tone_synthesizer.md R112). -/
def advanceCell (t : Tone) (r : Regs) : Regs :=
  if lastSamp t r then endCell r else { r with sampIdx := r.sampIdx + 1 }

/-- Where a leader leads: HEADER after the first, and after the second BODY, or DONE if the input is exhausted
(43_frame_sequencer.md R141, R147). -/
def afterLeader (r : Regs) : Phase :=
  if r.phase == .leader1 then .header else if r.eofSeen then .done else .body

/-- The leader sample counter at an output transfer (42_leader_generator.md R131). -/
def advanceLeader (r : Regs) : Regs :=
  if lastLead r then { r with lcnt := 0, phase := afterLeader r } else { r with lcnt := r.lcnt + 1 }

/-- The pull of a byte: it is loaded and its first cell begins (43_frame_sequencer.md R142, R143, R144, R148). -/
def loadByte (b : Byte) (r : Regs) : Regs := setHaveByte { r with byteReg := b, bitIdx := 0, sampIdx := 0 }

/-- One more name-record byte (10_state.md R28). -/
def countName (r : Regs) : Regs := { r with nameCnt := r.nameCnt + 1 }

/-- The pull of EOF: the header falls through to the second leader, the body ends the run (43_frame_sequencer.md
R145, R149). -/
def endInput (r : Regs) : Regs :=
  setEofSeen { r with phase := if r.phase == .header then .leader2 else .done }

end Sys2Proof.Machine
end

