-- ==== Sys2Proof/Machine/ToneSynthesizer.lean ====
section
/-! DEFINITION. EMIT_SPACE and EMIT_MARK (40_tone_synthesizer.md): one clock edge of the cell in progress. -/

namespace Sys2Proof.Machine

/-- One clock edge of a cell: the ROM's sample at `{tone, samp_idx}` is presented, and at its transfer the sample
counter advances (40_tone_synthesizer.md R110, R111, R112). -/
def emitSample (t : Tone) (s : State) : Host.Outcome State Fault Refusal :=
  present (romRead (romAddr t s.regs.sampIdx)) (advanceCell t) s

/-- EMIT_SPACE (40_tone_synthesizer.md R111, R112). -/
def execEmitSpace (s : State) : Host.Outcome State Fault Refusal :=
  clocked (selected .emitSpace s) s (emitSample .space s)

/-- EMIT_MARK (40_tone_synthesizer.md R110, R112). -/
def execEmitMark (s : State) : Host.Outcome State Fault Refusal :=
  clocked (selected .emitMark s) s (emitSample .mark s)

end Sys2Proof.Machine
end

