-- ==== Sys2Proof/Machine/BitEncoder.lean ====
section
/-! DEFINITION. ENCODE_BYTE (41_bit_encoder.md): one clock edge of the byte in progress. -/

namespace Sys2Proof.Machine

/-- ENCODE_BYTE: "test bit i of b; emit Mark if set, Space if clear" (41_bit_encoder.md R120). -/
def execEncodeByte (b : Byte) (s : State) : Host.Outcome State Fault Refusal :=
  clocked (selected (.encodeByte b) s) s
    (match tone s.regs with
    | .space => execEmitSpace s
    | .mark => execEmitMark s)

end Sys2Proof.Machine
end

