-- ==== Sys2Proof/Machine/LeaderGenerator.lean ====
section
/-! DEFINITION. EMIT_LEADER (42_leader_generator.md): one clock edge of the leader in progress. -/

namespace Sys2Proof.Machine

/-- EMIT_LEADER: the silence value is presented, and at its transfer the leader counter advances
(42_leader_generator.md R130, R131). -/
def execEmitLeader (p : Leader) (s : State) : Host.Outcome State Fault Refusal :=
  clocked (selected (.emitLeader p) s) s (present (.ok Config.silence) advanceLeader s)

end Sys2Proof.Machine
end

