-- ==== Sys2Proof/Machine/FrameSequencer.lean ====
section
/-! DEFINITION. The token and phase operations (43_frame_sequencer.md): one clock edge of the frame sequencer. -/

namespace Sys2Proof.Machine

/-! ## Token operations -/

/-- TOK_BYTE: a preamble, name-record or body byte (43_frame_sequencer.md R142, R144, R148). A nineteenth name byte
is outside the spec (log 6). -/
def execTokByte (d : Byte) (s : State) : Host.Outcome State Fault Refusal :=
  clocked (selected (.tokByte d) s) s
    (if namingPhase s.regs then
      if hdrFull s.regs then .refused .nameCountPastEnd
      else .next (pull s (countName (loadByte d s.regs)))
    else .next (pull s (loadByte d s.regs)))

/-- TOK_SYNC: the byte 0x3C that ends the preamble, itself encoded (43_frame_sequencer.md R143). -/
def execTokSync (s : State) : Host.Outcome State Fault Refusal :=
  clocked (selected .tokSync s) s (.next (pull s (setSyncFound (loadByte Config.syncByte s.regs))))

/-- TOK_EOF (43_frame_sequencer.md R145, R149). -/
def execTokEof (s : State) : Host.Outcome State Fault Refusal :=
  clocked (selected .tokEof s) s (.next (pull s (endInput s.regs)))

/-- The token on the port is taken when there is one; otherwise the block waits (20_memory.md R58). -/
def awaitToken (s : State) : Host.Outcome State Fault Refusal :=
  if inXfer s then
    match portOp s with
    | .byte d => execTokByte d s
    | .sync => execTokSync s
    | .eof => execTokEof s
  else .next s

/-- The two data phases: the pending byte is encoded, or the next token is awaited (43_frame_sequencer.md R154). -/
def dataPhase (s : State) : Host.Outcome State Fault Refusal :=
  if s.regs.haveByte then execEncodeByte s.regs.byteReg s else awaitToken s

/-! ## Phase operations -/

/-- PH_LEADER1 (43_frame_sequencer.md R141). -/
def execPhLeader1 (s : State) : Host.Outcome State Fault Refusal :=
  clocked (selected .phLeader1 s) s (execEmitLeader .first s)

/-- PH_HEADER (43_frame_sequencer.md R142 to R146). -/
def execPhHeader (s : State) : Host.Outcome State Fault Refusal :=
  clocked (selected .phHeader s) s (dataPhase s)

/-- PH_LEADER2 (43_frame_sequencer.md R147). -/
def execPhLeader2 (s : State) : Host.Outcome State Fault Refusal :=
  clocked (selected .phLeader2 s) s (execEmitLeader .second s)

/-- PH_BODY (43_frame_sequencer.md R148, R149). -/
def execPhBody (s : State) : Host.Outcome State Fault Refusal :=
  clocked (selected .phBody s) s (dataPhase s)

/-- PH_DONE: "no register changes at any clock edge, whatever the inputs (other than `rst`)" (43_frame_sequencer.md
R150). -/
def execPhDone (s : State) : Host.Outcome State Fault Refusal :=
  clocked (selected .phDone s) s (.next s)

end Sys2Proof.Machine
end

