-- ==== Sys2Proof/Machine/Dispatch.lean ====
section
/-! DEFINITION. One arm per operation: one clock edge of it (30_encoding.md R87; log 1). -/

namespace Sys2Proof.Machine

def exec (i : Instr) (s : State) : Host.Outcome State Fault Refusal :=
  match i with
  | .emitSpace => Sys2Proof.Machine.execEmitSpace s
  | .emitMark => Sys2Proof.Machine.execEmitMark s
  | .encodeByte b => Sys2Proof.Machine.execEncodeByte b s
  | .emitLeader p => Sys2Proof.Machine.execEmitLeader p s
  | .phLeader1 => Sys2Proof.Machine.execPhLeader1 s
  | .phHeader => Sys2Proof.Machine.execPhHeader s
  | .phLeader2 => Sys2Proof.Machine.execPhLeader2 s
  | .phBody => Sys2Proof.Machine.execPhBody s
  | .phDone => Sys2Proof.Machine.execPhDone s
  | .tokByte d => Sys2Proof.Machine.execTokByte d s
  | .tokSync => Sys2Proof.Machine.execTokSync s
  | .tokEof => Sys2Proof.Machine.execTokEof s

end Sys2Proof.Machine
end

