-- ==== Sys2Proof/Machine/Fetch.lean ====
section
/-! DEFINITION. What a clock edge reads its operation from, what the environment does after it, and where a table word is placed. -/

namespace Sys2Proof.Machine

/-- The outermost operation of the cycle: the one the phase register's code selects (30_encoding.md R84, R87: "a
phase operation runs token operations and ENCODE_BYTE or EMIT_LEADER"). -/
def fetch (s : State) : Except DecodeError Instr := decode .phaseRegister s.regs.phase.code.toNat

/-- The next cycle's levels appear on the input ports, idle ones when the list has ended (log 3). -/
def tick (s : State) : State :=
  { s with pins := s.coming.headD Pins.idle, coming := s.coming.tail, cycle := s.cycle + 1 }

/-- What a step answers after an edge: the environment's next levels appear where the machine goes on. -/
def afterEdge (o : Host.Outcome State Fault Refusal) : Host.Outcome State Fault Refusal :=
  match o with
  | .next t => .next (tick t)
  | .fault f => .fault f
  | .refused r => .refused r

/-- The data phase in which an operation of the byte path is placed: the present one if it is one, else HEADER. -/
def dataPhaseOf (r : Regs) : Phase := if inDataPhase r then r.phase else .header

/-- A byte at the start of its first cell, in a data phase. -/
def holdByte (b : Byte) (r : Regs) : Regs := { loadByte b r with phase := dataPhaseOf r }

/-- A word of the operation table placed where the next clock edge reads it, with the levels that let it act: a
tone in every bit of the byte register, a byte in the byte register, a code in the phase register, a token on the
input port while the sync byte is searched for (log 19). -/
def placeWord (site : Site) (w : Nat) (s : State) : State :=
  match site with
  | .toneSelect =>
    { s with
      regs := holdByte (if decodeTone (BitVec.ofNat 1 w) == .mark then 0xFF else 0x00) s.regs
      pins := { s.pins with rst := false, outReady := true } }
  | .byteRegister =>
    { s with
      regs := holdByte (BitVec.ofNat 8 w) s.regs
      pins := { s.pins with rst := false, outReady := true } }
  | .leaderSelect | .phaseRegister =>
    { s with
      regs := { s.regs with phase := (decodePhase (BitVec.ofNat 3 w)).getD s.regs.phase }
      pins := { s.pins with rst := false, outReady := true } }
  | .tokenPort searching =>
    { s with
      regs := { s.regs with
        phase := if searching then .header else .body
        haveByte := false
        syncFound := !searching }
      pins := { s.pins with
        rst := false
        inValid := true
        inEof := tokenEofBit (BitVec.ofNat 9 w)
        inData := tokenData (BitVec.ofNat 9 w) } }

end Sys2Proof.Machine
end

