-- ==== Sys2Proof/Machine/Step.lean ====
section
/-! DEFINITION. One rising edge of `clk` (44_top_level.md R171), and a table word placed for it. -/

namespace Sys2Proof.Machine

/-- One clock edge: the phase register's operation is executed, then the environment's next levels appear. -/
def step (s : State) : Host.Outcome State Fault Refusal :=
  match fetch s with
  | .error e => .refused (.undecodable e)
  | .ok i => afterEdge (exec i s)

/-- The state in which the next step runs the table word's operation (log 8, log 19). -/
def State.withFetchWord (s : State) (nbits w : Nat) : State :=
  match tableSite nbits w with
  | some site => placeWord site w s
  | none => s

end Sys2Proof.Machine
end

