-- ==== Sys2Proof/Machine/Stream.lean ====
section
/-! DEFINITION. The stream level: the samples of a cell, a byte, a leader and a whole frame (44_top_level.md R170), and the two streams of a record of transfers. -/

namespace Sys2Proof.Machine

/-- `T(tone)`: the samples of one cell (40_tone_synthesizer.md R110, R111). -/
def toneTable : Tone → List Sample
  | .space => Config.spaceTable
  | .mark => Config.markTable

/-- The tone of bit `i` of a byte (41_bit_encoder.md R120). -/
def bitTone (b : Byte) (i : Nat) : Tone := if b.getLsbD i then .mark else .space

/-- `enc(b)`: eight cells, bit 0 first (41_bit_encoder.md R120). -/
def enc (b : Byte) : List Sample := (List.range 8).flatMap fun i => toneTable (bitTone b i)

/-- `popcount(b)` (00_scope.md R6). -/
def popcount (b : Byte) : Nat := (List.range 8).countP fun i => b.getLsbD i

/-- `L` (42_leader_generator.md R130). -/
def leaderSamples : List Sample := List.replicate Config.leaderLen Config.silence

/-- The header's length `k` (44_top_level.md R170). -/
def headerLen (x : List Byte) : Nat :=
  match x.findIdx? (· == Config.syncByte) with
  | none => x.length
  | some p => min x.length (p + 1 + Config.nameLen)

/-- `Encode(x)` (44_top_level.md R170). -/
def encodeFrame (x : List Byte) : List Sample :=
  leaderSamples ++ (x.take (headerLen x)).flatMap enc ++ leaderSamples ++ (x.drop (headerLen x)).flatMap enc

/-- `[x_0, ..., x_(n-1)]` as tokens: the bytes and one EOF (30_encoding.md R90). -/
def inputTokens (x : List Byte) : List Token := x.map .byte ++ [.eof]

/-- The samples pushed, in order. -/
def pushes (h : List Event) : List Sample :=
  h.filterMap fun
    | .push x => some x
    | .pull _ => none

/-- The tokens pulled, in order. -/
def pulls (h : List Event) : List Token :=
  h.filterMap fun
    | .pull t => some t
    | .push _ => none

end Sys2Proof.Machine
end

