-- ==== Sys2Proof/Machine/Reference.lean ====
section
/-! DEFINITION. The step function of 44_top_level.md R171 as that rule writes it, in one piece over the nine registers and the input ports: what the nested operations are compared with. -/

namespace Sys2Proof.Machine

/-- The new registers of R171's `Step`, arm by arm. -/
def referenceStep (r : Regs) (p : Pins) : Regs :=
  if p.rst then Regs.reset
  else
    match r.phase with
    | .leader1 | .leader2 =>
      if p.outReady then
        if r.lcnt.val ≠ 11024 then { r with lcnt := r.lcnt + 1 }
        else if r.phase = .leader1 then { r with lcnt := 0, phase := .header }
        else if r.eofSeen then { r with lcnt := 0, phase := .done }
        else { r with lcnt := 0, phase := .body }
      else r
    | .header | .body =>
      if r.haveByte then
        if p.outReady then
          if r.sampIdx.val ≠ (if r.byteReg.getLsbD r.bitIdx.val then 5 else 9) - 1 then
            { r with sampIdx := r.sampIdx + 1 }
          else if r.bitIdx.val ≠ 7 then { r with sampIdx := 0, bitIdx := r.bitIdx + 1 }
          else if r.phase = .header ∧ r.syncFound ∧ r.nameCnt.val = 18 then
            { r with sampIdx := 0, bitIdx := 0, haveByte := false, phase := .leader2 }
          else { r with sampIdx := 0, bitIdx := 0, haveByte := false }
        else r
      else if p.inValid then
        if p.inEof then
          { r with eofSeen := true, phase := if r.phase = .header then .leader2 else .done }
        else
          let loaded := { r with byteReg := p.inData, haveByte := true, bitIdx := 0, sampIdx := 0 }
          if r.phase = .header then
            if r.syncFound then { loaded with nameCnt := r.nameCnt + 1 }
            else if p.inData = 0x3C then { loaded with syncFound := true }
            else loaded
          else loaded
      else r
    | .done => r

/-- "The observable event of a step is one of: nothing, `Pull(token)`, `Push(sample)`" (R171). -/
def referenceEvent (r : Regs) (p : Pins) : Option Event :=
  if p.rst then none
  else
    match r.phase with
    | .leader1 | .leader2 => if p.outReady then some (.push 0x40) else none
    | .header | .body =>
      if r.haveByte then
        if p.outReady then ((toneTable (bitTone r.byteReg r.bitIdx.val))[r.sampIdx.val]?).map .push else none
      else if p.inValid then some (.pull (if p.inEof then .eof else .byte p.inData))
      else none
    | .done => none

end Sys2Proof.Machine
end

