-- ==== Sys2Proof/Safety.lean ====
section
/-! DEFINITION. The terms claims are made in: the invariants of 10_state.md R39, a run driven by an environment, and the environment's duties. -/

namespace Sys2Proof.Machine

/-! ## The invariants of every reachable state (10_state.md R39) -/

/-- I2 beyond the counter's type: `lcnt` is 0 outside the leaders. -/
abbrev InvLeaderCount (r : Regs) : Prop := inLeader r = false → r.lcnt.val = 0

/-- I3. -/
abbrev InvPendingByte (r : Regs) : Prop := r.haveByte = true → inDataPhase r = true

/-- I4. -/
abbrev InvSelectorsAtRest (r : Regs) : Prop := r.haveByte = false → r.bitIdx.val = 0 ∧ r.sampIdx.val = 0

/-- I5: the sample index lies in the cell. -/
abbrev InvSampleInCell (r : Regs) : Prop := r.haveByte = true → r.sampIdx.val < cellLen (tone r)

/-- I6 beyond the counter's type. -/
abbrev InvNamesAfterSync (r : Regs) : Prop := r.syncFound = false → r.nameCnt.val = 0

/-- I7. -/
abbrev InvLeader1 (r : Regs) : Prop :=
  r.phase = .leader1 → r.syncFound = false ∧ r.nameCnt.val = 0 ∧ r.eofSeen = false

/-- I8. -/
abbrev InvHeaderAsks (r : Regs) : Prop :=
  r.phase = .header → r.haveByte = false → r.eofSeen = false ∧ hdrFull r = false

/-- I9 and I14. -/
abbrev InvBody (r : Regs) : Prop := r.phase = .body → r.eofSeen = false

/-- I10. -/
abbrev InvDone (r : Regs) : Prop := r.phase = .done → r.eofSeen = true ∧ r.haveByte = false

/-- I11. -/
abbrev InvExhausted (r : Regs) : Prop := r.eofSeen = true → r.phase = .leader2 ∨ r.phase = .done

/-- I13. -/
abbrev InvPreambleByte (r : Regs) : Prop :=
  r.phase = .header → r.haveByte = true → r.syncFound = false → r.byteReg ≠ Config.syncByte

/-- The invariants of R39 on the registers. I1 and the ranges of I2 and I6 hold by type, I12 is about the outputs
and is stated apart. -/
abbrev Invariants (r : Regs) : Prop :=
  InvLeaderCount r ∧ InvPendingByte r ∧ InvSelectorsAtRest r ∧ InvSampleInCell r ∧ InvNamesAfterSync r ∧
    InvLeader1 r ∧ InvHeaderAsks r ∧ InvBody r ∧ InvDone r ∧ InvExhausted r ∧ InvPreambleByte r

/-! ## The ROM as memory -/

/-- The canonical form of a list of cells: addresses strictly rising. An unlisted address holds nothing. -/
def Memory.wf : List Host.Cell → Bool
  | [] => true
  | [_] => true
  | a :: b :: rest => a.1 < b.1 && Memory.wf (b :: rest)

/-! ## Runs -/

/-- Several steps, stopping at a fault or a refusal. -/
abbrev run (n : Nat) (s : State) : Host.Outcome State Fault Refusal := core.run n s

/-- The levels of an environment that holds the sink ready and presents nothing for `n` cycles. -/
def readyFor (n : Nat) : List Pins := List.replicate n { Pins.idle with outReady := true }

/-- The state in cycle `n` of a run from the reset state in which the environment puts `env m` on the input ports
in cycle `m` (10_state.md R37). A stop would keep everything else. -/
def drive (env : Nat → Pins) : Nat → State
  | 0 => { State.reset with pins := env 0 }
  | n + 1 =>
    match step (drive env n) with
    | .next t => { t with pins := env (n + 1) }
    | .fault _ => { drive env n with pins := env (n + 1) }
    | .refused _ => { drive env n with pins := env (n + 1) }

/-! ## The environment's duties -/

/-- `rst` stays 0 (44_top_level.md R172). -/
def NoReset (env : Nat → Pins) : Prop := ∀ n, (env n).rst = false

/-- As long as a token of `x` is left, a token the source presents is the next one: what 60_exceptions.md R200 and
70_reset_and_hazards.md R217 require of it, and less than that, since it may still withdraw the token or present
anything after EOF (log 18). -/
def PresentsInOrder (env : Nat → Pins) (x : List Byte) : Prop :=
  ∀ n t, (env n).inValid = true → (inputTokens x)[(pulls (drive env n).history).length]? = some t →
    portToken (env n) = t

/-- "The sink is ready infinitely often" (44_top_level.md R172). -/
def SinkFair (env : Nat → Pins) : Prop := ∀ n, ∃ m, n ≤ m ∧ (env m).outReady = true

/-- "The byte source presents each token within finite time" (44_top_level.md R172): an asking block is answered. -/
def SourceFair (env : Nat → Pins) : Prop :=
  ∀ n, inReady (drive env n) = true → ∃ m, n ≤ m ∧ (env m).inValid = true

end Sys2Proof.Machine
end

