-- ==== Sys2Proof/Certificates/Slice0/Obligations.lean ====
section
/-! DEFINITION. The statements for the provers. Each operation's statements are written over its own effect, register by register, and not over the model's helper functions; `s.transfer e r` is the state `s` with the registers `r` and the transfer `e` recorded. -/

open Sys2Proof Sys2Proof.Machine

namespace Sys2Proof.Claims

/-! ## The parts that several operations share -/

/-- One clock edge of an operation in the cell of bit value `bit`, whose table is `table`, in the given phases:
nothing is pulled and the indexed sample is presented (40_tone_synthesizer.md R110, R111); without the sink nothing
changes; with it the indexed sample is pushed, and the sample counter, the bit selector,
`have_byte` and the phase move as 40_tone_synthesizer.md R112, 41_bit_encoder.md R121, R122 and
43_frame_sequencer.md R146 say. -/
def CellEdge (op : Byte → Instr) (phases : List Phase) (bit : Bool) (table : List Sample) : Prop :=
  ∀ (s : State) (x : Sample), s.pins.rst = false → s.regs.phase ∈ phases → s.regs.haveByte = true →
    s.regs.byteReg.getLsbD s.regs.bitIdx.val = bit → table[s.regs.sampIdx.val]? = some x →
    inReady s = false ∧ outValid s = true ∧ outData s = .ok x ∧
    (s.pins.outReady = false → exec (op s.regs.byteReg) s = .next s) ∧
    (s.pins.outReady = true → s.regs.sampIdx.val + 1 < table.length →
      exec (op s.regs.byteReg) s =
        .next (s.transfer (.push x) { s.regs with sampIdx := s.regs.sampIdx + 1 })) ∧
    (s.pins.outReady = true → s.regs.sampIdx.val + 1 = table.length → s.regs.bitIdx.val < 7 →
      exec (op s.regs.byteReg) s =
        .next (s.transfer (.push x) { s.regs with sampIdx := 0, bitIdx := s.regs.bitIdx + 1 })) ∧
    (s.pins.outReady = true → s.regs.sampIdx.val + 1 = table.length → s.regs.bitIdx.val = 7 →
      exec (op s.regs.byteReg) s =
        .next (s.transfer (.push x)
          { s.regs with
            sampIdx := 0
            bitIdx := 0
            haveByte := false
            phase := if s.regs.phase = .header ∧ s.regs.syncFound = true ∧ s.regs.nameCnt.val = 18 then .leader2
              else s.regs.phase }))

/-- The five samples of a mark cell (40_tone_synthesizer.md R110). -/
def markSamples : List Sample := [0x80, 0xFF, 0x80, 0x00, 0x80]

/-- The nine samples of a space cell (40_tone_synthesizer.md R111). -/
def spaceSamples : List Sample := [0x80, 0xDA, 0xFF, 0xDA, 0x80, 0x25, 0x00, 0x25, 0x80]

/-- One clock edge of a leader in the phase `ph`, which gives way to `after` (42_leader_generator.md R131). -/
def LeaderEdge (op : Instr) (ph : Phase) (after : Regs → Phase) : Prop :=
  ∀ s : State, s.pins.rst = false → s.regs.phase = ph →
    inReady s = false ∧ outValid s = true ∧ outData s = .ok 0x40 ∧
    (s.pins.outReady = false → exec op s = .next s) ∧
    (s.pins.outReady = true → s.regs.lcnt.val < 11024 →
      exec op s = .next (s.transfer (.push 0x40) { s.regs with lcnt := s.regs.lcnt + 1 })) ∧
    (s.pins.outReady = true → s.regs.lcnt.val = 11024 →
      exec op s = .next (s.transfer (.push 0x40) { s.regs with lcnt := 0, phase := after s.regs }))

/-- A token stands on the input port of a block that asks for one in the phase `ph`. -/
def TokenAt (s : State) (ph : Phase) (eof : Bool) : Prop :=
  s.pins.rst = false ∧ s.regs.phase = ph ∧ s.regs.haveByte = false ∧ s.pins.inValid = true ∧ s.pins.inEof = eof

/-- The pull of a preamble byte (43_frame_sequencer.md R142). -/
def PullsPreambleByte (op : Byte → Instr) : Prop :=
  ∀ s : State, TokenAt s .header false → s.regs.syncFound = false → s.pins.inData ≠ 0x3C →
    exec (op s.pins.inData) s =
      .next (s.transfer (.pull (.byte s.pins.inData))
        { s.regs with byteReg := s.pins.inData, haveByte := true, bitIdx := 0, sampIdx := 0 })

/-- The pull of the sync byte (43_frame_sequencer.md R143). -/
def PullsSyncByte (op : Instr) : Prop :=
  ∀ s : State, TokenAt s .header false → s.regs.syncFound = false → s.pins.inData = 0x3C →
    exec op s =
      .next (s.transfer (.pull (.byte 0x3C))
        { s.regs with byteReg := 0x3C, haveByte := true, bitIdx := 0, sampIdx := 0, syncFound := true })

/-- The pull of a name-record byte (43_frame_sequencer.md R144). -/
def PullsNameByte (op : Byte → Instr) : Prop :=
  ∀ s : State, TokenAt s .header false → s.regs.syncFound = true → s.regs.nameCnt.val < 18 →
    exec (op s.pins.inData) s =
      .next (s.transfer (.pull (.byte s.pins.inData))
        { s.regs with
          byteReg := s.pins.inData
          haveByte := true
          bitIdx := 0
          sampIdx := 0
          nameCnt := s.regs.nameCnt + 1 })

/-- The pull of a body byte (43_frame_sequencer.md R148). -/
def PullsBodyByte (op : Byte → Instr) : Prop :=
  ∀ s : State, TokenAt s .body false →
    exec (op s.pins.inData) s =
      .next (s.transfer (.pull (.byte s.pins.inData))
        { s.regs with byteReg := s.pins.inData, haveByte := true, bitIdx := 0, sampIdx := 0 })

/-- The pull of EOF in the phase `ph`, which gives way to `after` (43_frame_sequencer.md R145, R149). -/
def PullsEof (op : Instr) (ph after : Phase) : Prop :=
  ∀ s : State, TokenAt s ph true →
    exec op s = .next (s.transfer (.pull .eof) { s.regs with eofSeen := true, phase := after })

/-- With no token presented and no byte pending the operation waits (20_memory.md R58). -/
def WaitsForToken (op : Instr) (ph : Phase) : Prop :=
  ∀ s : State, s.pins.rst = false → s.regs.phase = ph → s.regs.haveByte = false → s.pins.inValid = false →
    inReady s = true ∧ exec op s = .next s

/-- The sink is ready and reset is low in this cycle and the `n - 1` that follow it. -/
def ReadyFor (n : Nat) (s : State) : Prop :=
  ∀ k, k < n → ∃ p, (s.pins :: s.coming)[k]? = some p ∧ p.rst = false ∧ p.outReady = true

/-- Reset is low in this cycle and in all that follow it. -/
def NoResetComing (s : State) : Prop := ∀ p ∈ s.pins :: s.coming, p.rst = false

end Sys2Proof.Claims

open Sys2Proof.Claims

/-! ## Encodings -/

/-- Tier 3, encoding. 30_encoding.md R81 to R87: decoding an operation's word, where the operation can be read,
gives the operation back, with every operand. The places a word is read from are the model's (log 9). -/
def Obligations.DecodeOfEncodeIsTheOperation : Prop :=
  ∀ (site : Site) (i : Instr), i.wellFormedAt site = true → decode site (encode i) = .ok i

/-- Tier 2, encoding. The other direction: a word that decodes is the word of an operation that can be read there;
only the 256 EOF tokens share one operation (30_encoding.md R88; that its own word has data 0x00 is log 12). -/
def Obligations.DecodedWordIsTheOperationsWord : Prop :=
  ∀ (site : Site) (w : Nat) (i : Instr), decode site w = .ok i →
    i.wellFormedAt site = true ∧ w < 2 ^ site.format.width ∧ (encode i = w ∨ (i = .tokEof ∧ 256 ≤ w))

/-- Tier 2, encoding. 30_encoding.md R84, R88: within its width a word is refused at the phase register exactly as
one of the reserved codes 5, 6 and 7, and no tone, byte or token is refused. The model's choice (log 9): the leader
generator reads the phase code at a site of its own and there refuses, beside the reserved codes, the codes 1, 3 and 4
of the phases that are no leader. -/
def Obligations.OnlyReservedOrNonLeaderCodesAreRefused : Prop :=
  ∀ (site : Site) (w : Nat), w < 2 ^ site.format.width →
    ((∃ e, decode site w = .error e) ↔
      (site = .phaseRegister ∧ 5 ≤ w) ∨ (site = .leaderSelect ∧ w ≠ 0 ∧ w ≠ 2))

/-- Tier 1, encoding. Words written out from the patterns of 30_encoding.md R87 and spec/opcode_table.json, each at
the place it is read from (log 9). -/
def Obligations.WordsOfTheTableDecode : Prop :=
  decode .toneSelect 0b0 = .ok .emitSpace ∧
  decode .toneSelect 0b1 = .ok .emitMark ∧
  decode .byteRegister 0b10100101 = .ok (.encodeByte 0xA5) ∧
  decode .leaderSelect 0b010 = .ok (.emitLeader .second) ∧
  decode .phaseRegister 0b000 = .ok .phLeader1 ∧
  decode .phaseRegister 0b011 = .ok .phBody ∧
  decode .phaseRegister 0b101 = .error (.reservedPhase 0b101) ∧
  decode (.tokenPort true) 0b000111100 = .ok .tokSync ∧
  decode (.tokenPort false) 0b000111100 = .ok (.tokByte 0x3C) ∧
  decode (.tokenPort true) 0b100111100 = .ok .tokEof

/-- Tier 2, functional. 30_encoding.md R91: the pulled byte 0x3C is TOK_SYNC in HEADER while `sync_found` = 0 and
TOK_BYTE everywhere else, and in every context the step loads it for encoding as any other byte. -/
def Obligations.SyncByteIsSpecialOnlyInTheSearch : Prop :=
  ∀ s : State, Invariants s.regs → inXfer s = true → s.pins.inEof = false → s.pins.inData = 0x3C →
    (selected .tokSync s = true ↔ s.regs.phase = .header ∧ s.regs.syncFound = false) ∧
    (selected (.tokByte 0x3C) s = true ↔ ¬(s.regs.phase = .header ∧ s.regs.syncFound = false)) ∧
    ∃ t, step s = .next t ∧ t.regs.byteReg = 0x3C ∧ t.regs.haveByte = true ∧ t.regs.bitIdx = 0 ∧ t.regs.sampIdx = 0

/-! ## The step and the operations -/

/-- Tier 1, other. 30_encoding.md R84, R87: the step executes the operation that the code of the phase register
decodes to, and then the next levels appear on the ports. -/
def Obligations.StepRunsTheDecodedOperation : Prop :=
  ∀ (s : State) (i : Instr), decode .phaseRegister s.regs.phase.code.toNat = .ok i →
    (∀ t, exec i s = .next t →
      step s = .next { t with
        pins := t.coming.headD ⟨false, false, false, 0, false⟩, coming := t.coming.tail, cycle := t.cycle + 1 }) ∧
    (∀ f, exec i s = .fault f → step s = .fault f) ∧
    (∀ r, exec i s = .refused r → step s = .refused r)

/-- Tier 2, equivalence. 30_encoding.md R87, "The operations nest": every operation that a state selects has the
same clock edge as the phase operation that the step executes. -/
def Obligations.SelectedOperationsShareOneEdge : Prop :=
  ∀ (i : Instr) (s : State), selected i s = true →
    exec i s = exec s.regs.phase.toInstr s ∧ step s = afterEdge (exec i s)

/-- Tier 2, functional. The model's choice (log 8, log 19): a word of the operation table that the decoder reads is
run by the very next step after it is placed. -/
def Obligations.PlacedWordIsRunNext : Prop :=
  ∀ (s : State) (nbits w : Nat) (i : Instr), decodeTableWord nbits w = some i →
    selected i (s.withFetchWord nbits w) = true ∧ (s.withFetchWord nbits w).pins.rst = false ∧
    step (s.withFetchWord nbits w) = afterEdge (exec i (s.withFetchWord nbits w))

/-- Tier 1, functional. The model's choice (log 2): without reset, an operation that 30_encoding.md R87 does not
select has no meaning in the state. -/
def Obligations.UnselectedOperationIsRefused : Prop :=
  ∀ (i : Instr) (s : State), s.pins.rst = false → selected i s = false → exec i s = .refused .notSelected

/-- Tier 2, functional. EMIT_MARK in its cell: 40_tone_synthesizer.md R110, R112. -/
def Obligations.EmitMarkPushesOneMarkSample : Prop :=
  CellEdge (fun _ => .emitMark) [.header, .body] true markSamples

/-- Tier 2, functional. EMIT_SPACE in its cell: 40_tone_synthesizer.md R111, R112. -/
def Obligations.EmitSpacePushesOneSpaceSample : Prop :=
  CellEdge (fun _ => .emitSpace) [.header, .body] false spaceSamples

/-- Tier 2, functional. ENCODE_BYTE in the cell of either bit value: 40_tone_synthesizer.md R112, 41_bit_encoder.md
R120 to R122. -/
def Obligations.EncodeByteRunsTheSelectedCell : Prop :=
  CellEdge .encodeByte [.header, .body] true markSamples ∧ CellEdge .encodeByte [.header, .body] false spaceSamples

/-- Tier 1, safety. The model's reading: past its fifth sample a mark cell would read a hole of the ROM, and a hole
faults (20_memory.md R53, 93_implementation_defined.md U2; log 5). U3 leaves the states themselves out of a model's
state type; here they are in it, because the sample counter's type holds 5 to 8 for the space cell's sake (log 6), and
they fault whether or not the sink is ready (log 17). -/
def Obligations.MarkCellPastItsEndFaults : Prop :=
  ∀ s : State, s.pins.rst = false → s.regs.phase = .header ∨ s.regs.phase = .body → s.regs.haveByte = true →
    s.regs.byteReg.getLsbD s.regs.bitIdx.val = true → 5 ≤ s.regs.sampIdx.val →
    exec .emitMark s = .fault (.romHole (BitVec.ofNat 5 (16 + s.regs.sampIdx.val)))

/-- Tier 2, functional. EMIT_LEADER in both leaders: 42_leader_generator.md R131. -/
def Obligations.EmitLeaderPushesOneSilenceSample : Prop :=
  LeaderEdge (.emitLeader .first) .leader1 (fun _ => .header) ∧
  LeaderEdge (.emitLeader .second) .leader2 (fun r => if r.eofSeen then .done else .body)

/-- Tier 2, functional. PH_LEADER1: 43_frame_sequencer.md R141. -/
def Obligations.PhLeader1PushesTheFirstLeader : Prop :=
  LeaderEdge .phLeader1 .leader1 (fun _ => .header)

/-- Tier 2, functional. PH_LEADER2: 43_frame_sequencer.md R147. -/
def Obligations.PhLeader2PushesTheSecondLeader : Prop :=
  LeaderEdge .phLeader2 .leader2 (fun r => if r.eofSeen then .done else .body)

/-- Tier 2, functional. PH_HEADER: 43_frame_sequencer.md R142 to R146. -/
def Obligations.PhHeaderPullsAndEncodes : Prop :=
  CellEdge (fun _ => .phHeader) [.header] true markSamples ∧
  CellEdge (fun _ => .phHeader) [.header] false spaceSamples ∧
  WaitsForToken .phHeader .header ∧
  PullsPreambleByte (fun _ => .phHeader) ∧
  PullsSyncByte .phHeader ∧
  PullsNameByte (fun _ => .phHeader) ∧
  PullsEof .phHeader .header .leader2

/-- Tier 2, functional. PH_BODY: 43_frame_sequencer.md R148, R149. -/
def Obligations.PhBodyPullsAndEncodes : Prop :=
  CellEdge (fun _ => .phBody) [.body] true markSamples ∧
  CellEdge (fun _ => .phBody) [.body] false spaceSamples ∧
  WaitsForToken .phBody .body ∧
  PullsBodyByte (fun _ => .phBody) ∧
  PullsEof .phBody .body .done

/-- Tier 1, functional. PH_DONE: 43_frame_sequencer.md R150. -/
def Obligations.PhDoneChangesNothing : Prop :=
  ∀ s : State, s.pins.rst = false → s.regs.phase = .done →
    exec .phDone s = .next s ∧ inReady s = false ∧ done s = true ∧ (Invariants s.regs → outValid s = false)

/-- Tier 2, functional. TOK_BYTE in its three contexts: 43_frame_sequencer.md R142, R144, R148. -/
def Obligations.TokByteLoadsTheByte : Prop :=
  PullsPreambleByte .tokByte ∧ PullsNameByte .tokByte ∧ PullsBodyByte .tokByte

/-- Tier 1, safety. 93_implementation_defined.md U3 (log 6): a nineteenth name byte has no representable count, and
the model refuses it. -/
def Obligations.NineteenthNameByteIsRefused : Prop :=
  ∀ s : State, TokenAt s .header false → s.regs.syncFound = true → s.regs.nameCnt.val = 18 →
    exec (.tokByte s.pins.inData) s = .refused .nameCountPastEnd

/-- Tier 2, functional. TOK_SYNC: 43_frame_sequencer.md R143. -/
def Obligations.TokSyncEndsThePreamble : Prop :=
  PullsSyncByte .tokSync

/-- Tier 2, functional. TOK_EOF in both phases: 43_frame_sequencer.md R145, R149. -/
def Obligations.TokEofEndsTheInput : Prop :=
  PullsEof .tokEof .header .leader2 ∧ PullsEof .tokEof .body .done

/-! ## Reset and the ports -/

/-- Tier 1, functional. 10_state.md R38: the nine values and the outputs of the reset state. -/
def Obligations.ResetStateIsTheTable : Prop :=
  State.reset.regs = ⟨.leader1, 0, false, 0x00, 0, 0, false, 0, false⟩ ∧
  ∀ s : State, s.regs = State.reset.regs → s.pins.rst = false →
    inReady s = false ∧ outValid s = true ∧ outData s = .ok 0x40 ∧ done s = false

/-- Tier 2, functional. 70_reset_and_hazards.md R210: at an edge with `rst` = 1 every register takes its reset
value, whatever the state and the inputs. The model's reading (log 10): every operation, also one that the state does
not select, answers that state, and the record and the model's other fields are kept. -/
def Obligations.ResetWinsOverEverything : Prop :=
  ∀ s : State, s.pins.rst = true →
    (∀ i : Instr, exec i s = .next { s with regs := ⟨.leader1, 0, false, 0x00, 0, 0, false, 0, false⟩ }) ∧
    ∃ t, step s = .next t ∧ t.regs = ⟨.leader1, 0, false, 0x00, 0, 0, false, 0, false⟩ ∧ t.history = s.history

/-- Tier 1, functional. 70_reset_and_hazards.md R213: while `rst` = 1 no handshake output is 1 and nothing is
transferred. -/
def Obligations.NoTransferDuringReset : Prop :=
  ∀ s t : State, s.pins.rst = true → step s = .next t →
    inReady s = false ∧ outValid s = false ∧ done s = false ∧ t.history = s.history

/-- Tier 1, other. 70_reset_and_hazards.md R221: in any two cycles with the same registers and the same `rst` the
outputs agree, so apart from `rst` no input reaches an output within a cycle. `out_data` is compared where a sample is
presented, in states with the invariants of 10_state.md R39. The last clause is the model's choice (log 7): the value
where `out_data` is unspecified depends on the cycle's number besides, and still on no input. -/
def Obligations.OutputsDependOnRegistersAndResetOnly : Prop :=
  ∀ s s' : State, s'.regs = s.regs → s'.pins.rst = s.pins.rst →
    inReady s' = inReady s ∧ outValid s' = outValid s ∧ done s' = done s ∧
    (Invariants s.regs → outValid s = true → outData s' = outData s) ∧
    (s'.cycle = s.cycle → outData s' = outData s)

/-- Tier 2, safety. 20_memory.md R59, 70_reset_and_hazards.md R218: a sample that the sink does not take stays
presented, and nothing else happens. -/
def Obligations.UntakenSampleStaysPresented : Prop :=
  ∀ s : State, Invariants s.regs → s.pins.rst = false → outValid s = true → s.pins.outReady = false →
    ∃ t, step s = .next t ∧ t.regs = s.regs ∧ t.history = s.history ∧
      (t.pins.rst = false → outValid t = true ∧ outData t = outData s)

/-- Tier 1, functional. 20_memory.md R52: the fourteen entries of the ROM. -/
def Obligations.RomHoldsTheTwoTables : Prop :=
  [0x00, 0x01, 0x02, 0x03, 0x04, 0x05, 0x06, 0x07, 0x08].map romRead =
    [.ok 0x80, .ok 0xDA, .ok 0xFF, .ok 0xDA, .ok 0x80, .ok 0x25, .ok 0x00, .ok 0x25, .ok 0x80] ∧
  [0x10, 0x11, 0x12, 0x13, 0x14].map romRead = [.ok 0x80, .ok 0xFF, .ok 0x80, .ok 0x00, .ok 0x80]

/-- Tier 2, safety. 20_memory.md R53: a read of any of the 18 holes faults, no state with the invariants makes one,
and no state that a run reaches presents one. -/
def Obligations.HolesFaultAndAreNeverRead : Prop :=
  (∀ a : RomAddr, (9 ≤ a.toNat ∧ a.toNat ≤ 15) ∨ 21 ≤ a.toNat → romRead a = .error (.romHole a)) ∧
  (∀ s : State, Invariants s.regs → outValid s = true →
    (∃ x, outData s = .ok x) ∧
    (inLeader s.regs = false → ∃ x, romRead (romAddr (tone s.regs) s.regs.sampIdx) = .ok x)) ∧
  ∀ (env : Nat → Pins) (n : Nat), outValid (drive env n) = true → ∃ x, outData (drive env n) = .ok x

/-- Tier 2, safety. 30_encoding.md R82: the block presents only six sample values. -/
def Obligations.PresentedSampleIsOneOfSix : Prop :=
  ∀ s : State, Invariants s.regs → outValid s = true →
    ∃ x, outData s = .ok x ∧ x ∈ ([0x00, 0x25, 0x40, 0x80, 0xDA, 0xFF] : List Sample)

/-! ## Whole-machine rules -/

/-- Tier 3, refinement. 44_top_level.md R171: from every state with the invariants, one step of the model is the
spec's `Step`, on the registers and in the event it shows; the transfers are the ones that rule defines, no transfer
means no change, and the two never coincide. The clauses about `pins`, `coming` and `cycle` are about the model's own
fields and its choices (log 3, log 7). -/
def Obligations.StepIsTheSpecsStep : Prop :=
  ∀ s : State, Invariants s.regs →
    (inXfer s = true ↔ s.pins.rst = false ∧ (s.regs.phase = .header ∨ s.regs.phase = .body) ∧
      s.regs.haveByte = false ∧ s.pins.inValid = true) ∧
    (outXfer s = true ↔ s.pins.rst = false ∧
      (s.regs.phase = .leader1 ∨ s.regs.phase = .leader2 ∨ s.regs.haveByte = true) ∧ s.pins.outReady = true) ∧
    ¬(inXfer s = true ∧ outXfer s = true) ∧
    (s.pins.rst = false → inXfer s = false → outXfer s = false → referenceStep s.regs s.pins = s.regs) ∧
    ∃ t, step s = .next t ∧ t.regs = referenceStep s.regs s.pins ∧
      t.history = s.history ++ (referenceEvent s.regs s.pins).toList ∧
      t.pins = s.coming.headD Pins.idle ∧ t.coming = s.coming.tail ∧ t.cycle = s.cycle + 1

/-- Tier 3, invariant. 10_state.md R39: every step keeps the invariants, whatever is on the ports. -/
def Obligations.EveryStepKeepsTheInvariants : Prop :=
  ∀ s t : State, Invariants s.regs → step s = .next t → Invariants t.regs

/-- Tier 1, invariant. 10_state.md R38, R39: the reset state meets the invariants. -/
def Obligations.ResetStateMeetsTheInvariants : Prop :=
  Invariants State.reset.regs

/-- Tier 3, invariant. 10_state.md R39: every state of every run, with resets in it or without, meets the
invariants, and with `rst` = 0 exactly one of `in_ready`, `out_valid` and `done` is 1 in it. -/
def Obligations.ReachableStatesMeetTheInvariants : Prop :=
  ∀ (env : Nat → Pins) (n : Nat), Invariants (drive env n).regs ∧
    ((drive env n).pins.rst = false →
      (inReady (drive env n)).toNat + (outValid (drive env n)).toNat + (done (drive env n)).toNat = 1)

/-- Tier 2, safety. 60_exceptions.md R190: no reachable state and no input makes a step fault or refuse. -/
def Obligations.NoReachableStateStops : Prop :=
  ∀ (env : Nat → Pins) (n : Nat), ∃ t, step (drive env n) = .next t

/-- Tier 2, safety. 43_frame_sequencer.md R140: the only phase transitions, with what each of them takes. -/
def Obligations.PhasesMoveOnlyForward : Prop :=
  ∀ s t : State, step s = .next t → s.pins.rst = false →
    s.regs.phase.code.toNat ≤ t.regs.phase.code.toNat ∧
    (t.regs.phase = s.regs.phase ∨
      (s.regs.phase = .leader1 ∧ t.regs.phase = .header ∧ s.regs.lcnt.val = 11024 ∧ outXfer s = true) ∨
      (s.regs.phase = .header ∧ t.regs.phase = .leader2 ∧
        ((inXfer s = true ∧ s.pins.inEof = true) ∨
          (outXfer s = true ∧ s.regs.bitIdx.val = 7 ∧ lastSamp (tone s.regs) s.regs = true ∧
            s.regs.syncFound = true ∧ s.regs.nameCnt.val = 18))) ∨
      (s.regs.phase = .leader2 ∧ t.regs.phase = .body ∧ s.regs.lcnt.val = 11024 ∧ outXfer s = true ∧
        s.regs.eofSeen = false) ∨
      (s.regs.phase = .leader2 ∧ t.regs.phase = .done ∧ s.regs.lcnt.val = 11024 ∧ outXfer s = true ∧
        s.regs.eofSeen = true) ∨
      (s.regs.phase = .body ∧ t.regs.phase = .done ∧ inXfer s = true ∧ s.pins.inEof = true))

/-- Tier 2, functional. The frame of the machine, from 10_state.md R21 to R29: when a step without reset may change
each of the nine registers, and to what. `PhasesMoveOnlyForward` says to what the phase changes. -/
def Obligations.EachRegisterChangesOnlyByItsRules : Prop :=
  ∀ s t : State, step s = .next t → s.pins.rst = false →
    (t.regs.phase ≠ s.regs.phase →
      (outXfer s = true ∧ inLeader s.regs = true ∧ s.regs.lcnt.val = 11024) ∨
      (outXfer s = true ∧ s.regs.phase = .header ∧ s.regs.haveByte = true ∧ s.regs.bitIdx.val = 7 ∧
        lastSamp (tone s.regs) s.regs = true) ∨
      (inXfer s = true ∧ s.pins.inEof = true)) ∧
    (t.regs.lcnt ≠ s.regs.lcnt →
      outXfer s = true ∧ inLeader s.regs = true ∧
        t.regs.lcnt.val = if s.regs.lcnt.val = 11024 then 0 else s.regs.lcnt.val + 1) ∧
    (t.regs.haveByte ≠ s.regs.haveByte →
      (t.regs.haveByte = true ∧ inXfer s = true ∧ s.pins.inEof = false) ∨
      (t.regs.haveByte = false ∧ outXfer s = true ∧ s.regs.bitIdx.val = 7 ∧
        lastSamp (tone s.regs) s.regs = true)) ∧
    (t.regs.byteReg ≠ s.regs.byteReg →
      inXfer s = true ∧ s.pins.inEof = false ∧ t.regs.byteReg = s.pins.inData) ∧
    (t.regs.bitIdx ≠ s.regs.bitIdx →
      (inXfer s = true ∧ s.pins.inEof = false ∧ t.regs.bitIdx = 0) ∨
      (outXfer s = true ∧ s.regs.haveByte = true ∧ lastSamp (tone s.regs) s.regs = true ∧
        t.regs.bitIdx.val = if s.regs.bitIdx.val = 7 then 0 else s.regs.bitIdx.val + 1)) ∧
    (t.regs.sampIdx ≠ s.regs.sampIdx →
      (inXfer s = true ∧ s.pins.inEof = false ∧ t.regs.sampIdx = 0) ∨
      (outXfer s = true ∧ s.regs.haveByte = true ∧
        t.regs.sampIdx.val = if lastSamp (tone s.regs) s.regs then 0 else s.regs.sampIdx.val + 1)) ∧
    (t.regs.syncFound ≠ s.regs.syncFound →
      t.regs.syncFound = true ∧ inXfer s = true ∧ s.pins.inEof = false ∧ s.pins.inData = 0x3C ∧
        s.regs.phase = .header) ∧
    (t.regs.nameCnt ≠ s.regs.nameCnt →
      t.regs.nameCnt.val = s.regs.nameCnt.val + 1 ∧ inXfer s = true ∧ s.pins.inEof = false ∧
        s.regs.phase = .header ∧ s.regs.syncFound = true) ∧
    (t.regs.eofSeen ≠ s.regs.eofSeen → t.regs.eofSeen = true ∧ inXfer s = true ∧ s.pins.inEof = true)

/-- Tier 2, functional. 41_bit_encoder.md R121: the last sample of one of the cells 0 to 6 moves the bit selector
and nothing else, and the next cycle presents the first sample of the next bit's cell. -/
def Obligations.BitSelectorAdvancesAtTheEndOfACell : Prop :=
  ∀ s : State, Invariants s.regs → s.regs.haveByte = true → outXfer s = true →
    lastSamp (tone s.regs) s.regs = true → s.regs.bitIdx.val ≠ 7 →
    ∃ t, step s = .next t ∧ t.regs = { s.regs with sampIdx := 0, bitIdx := s.regs.bitIdx + 1 } ∧
      t.regs.bitIdx.val = s.regs.bitIdx.val + 1 ∧
      (t.pins.rst = false → outValid t = true ∧
        outData t = .ok ((toneTable (bitTone s.regs.byteReg (s.regs.bitIdx.val + 1))).headD 0))

/-- Tier 2, functional. 41_bit_encoder.md R122, 43_frame_sequencer.md R146: the end of a byte. A full header gives
way to the second leader in the same edge, and the next cycle presents its first sample; otherwise the next cycle
asks for a token. -/
def Obligations.EndOfByteAsksOrStartsTheSecondLeader : Prop :=
  ∀ s : State, Invariants s.regs → s.regs.haveByte = true → outXfer s = true →
    lastSamp (tone s.regs) s.regs = true → s.regs.bitIdx.val = 7 →
    ∃ t, step s = .next t ∧
      (s.regs.phase = .header ∧ s.regs.syncFound = true ∧ s.regs.nameCnt.val = 18 →
        t.regs = { s.regs with sampIdx := 0, bitIdx := 0, haveByte := false, phase := .leader2 } ∧
        (t.pins.rst = false → inReady t = false ∧ outValid t = true ∧ outData t = .ok 0x40)) ∧
      (¬(s.regs.phase = .header ∧ s.regs.syncFound = true ∧ s.regs.nameCnt.val = 18) →
        t.regs = { s.regs with sampIdx := 0, bitIdx := 0, haveByte := false } ∧
        (t.pins.rst = false → inReady t = true ∧ outValid t = false))

/-- Tier 2, safety. 43_frame_sequencer.md R153: once EOF has been pulled nothing more is pulled. -/
def Obligations.ExhaustedBlockNeverPullsAgain : Prop :=
  ∀ (n : Nat) (s : State), Invariants s.regs → s.regs.eofSeen = true → NoResetComing s →
    (s.regs.phase = .leader2 ∨ s.regs.phase = .done) ∧ inReady s = false ∧
    ∃ t, run n s = .next t ∧ t.regs.eofSeen = true ∧ pulls t.history = pulls s.history

/-- Tier 2, safety. 43_frame_sequencer.md R150, 70_reset_and_hazards.md R215: only reset leaves DONE. -/
def Obligations.DoneLastsUntilReset : Prop :=
  ∀ (n : Nat) (s : State), s.regs.phase = .done → NoResetComing s →
    ∃ t, run n s = .next t ∧ t.regs = s.regs ∧ t.history = s.history ∧ done t = true ∧ inReady t = false

/-- Tier 2, noninterference. 70_reset_and_hazards.md R215: after an edge with `rst` = 1 two blocks that see the same
inputs do the same, whatever their states were. -/
def Obligations.NothingSurvivesAReset : Prop :=
  ∀ (n : Nat) (s s' : State), s.pins.rst = true → s'.pins.rst = true → s.coming = s'.coming →
    ∃ t t' h, run (n + 1) s = .next t ∧ run (n + 1) s' = .next t' ∧ t.regs = t'.regs ∧
      t.history = s.history ++ h ∧ t'.history = s'.history ++ h

/-! ## Cells, bytes and leaders -/

/-- Tier 2, functional. 40_tone_synthesizer.md R110: a mark cell pushes exactly its five samples, in order. -/
def Obligations.MarkCellPushesItsFiveSamples : Prop :=
  ∀ s : State, s.regs.phase = .header ∨ s.regs.phase = .body → s.regs.haveByte = true →
    s.regs.byteReg.getLsbD s.regs.bitIdx.val = true → s.regs.sampIdx = 0 → ReadyFor 5 s →
    ∃ t, run 5 s = .next t ∧
      t.history = s.history ++ [.push 0x80, .push 0xFF, .push 0x80, .push 0x00, .push 0x80] ∧
      t.regs.sampIdx = 0 ∧ t.regs.syncFound = s.regs.syncFound ∧ t.regs.eofSeen = s.regs.eofSeen ∧
      t.regs.byteReg = s.regs.byteReg ∧ t.regs.nameCnt = s.regs.nameCnt ∧ t.regs.lcnt = s.regs.lcnt ∧
      (s.regs.bitIdx.val < 7 → t.regs.bitIdx.val = s.regs.bitIdx.val + 1 ∧ t.regs.haveByte = true ∧
        t.regs.phase = s.regs.phase)

/-- Tier 2, functional. 40_tone_synthesizer.md R111: a space cell pushes exactly its nine samples, in order. -/
def Obligations.SpaceCellPushesItsNineSamples : Prop :=
  ∀ s : State, s.regs.phase = .header ∨ s.regs.phase = .body → s.regs.haveByte = true →
    s.regs.byteReg.getLsbD s.regs.bitIdx.val = false → s.regs.sampIdx = 0 → ReadyFor 9 s →
    ∃ t, run 9 s = .next t ∧
      t.history = s.history ++ [.push 0x80, .push 0xDA, .push 0xFF, .push 0xDA, .push 0x80, .push 0x25, .push 0x00,
        .push 0x25, .push 0x80] ∧
      t.regs.sampIdx = 0 ∧ t.regs.syncFound = s.regs.syncFound ∧ t.regs.eofSeen = s.regs.eofSeen ∧
      t.regs.byteReg = s.regs.byteReg ∧ t.regs.nameCnt = s.regs.nameCnt ∧ t.regs.lcnt = s.regs.lcnt ∧
      (s.regs.bitIdx.val < 7 → t.regs.bitIdx.val = s.regs.bitIdx.val + 1 ∧ t.regs.haveByte = true ∧
        t.regs.phase = s.regs.phase)

/-- Tier 3, functional. 41_bit_encoder.md R120: from its first cell a byte pushes exactly `enc(b)`, eight tables,
least significant bit first, and then it is no longer pending. -/
def Obligations.PendingByteIsPushedAsItsEightCells : Prop :=
  ∀ s : State, s.regs.phase = .header ∨ s.regs.phase = .body → s.regs.haveByte = true → s.regs.bitIdx = 0 →
    s.regs.sampIdx = 0 → ReadyFor (enc s.regs.byteReg).length s →
    enc s.regs.byteReg = (List.range 8).flatMap (fun i =>
      if s.regs.byteReg.getLsbD i then markSamples else spaceSamples) ∧
    ∃ t, run (enc s.regs.byteReg).length s = .next t ∧
      t.history = s.history ++ (enc s.regs.byteReg).map .push ∧
      t.regs = { s.regs with
        haveByte := false
        phase := if s.regs.phase = .header ∧ s.regs.syncFound = true ∧ s.regs.nameCnt.val = 18 then .leader2
          else s.regs.phase }

/-- Tier 2, functional. 42_leader_generator.md R130: from its first sample a leader pushes exactly 11025 samples,
every one 0x40, and then the phase advances as 43_frame_sequencer.md R141 and R147 say. -/
def Obligations.LeaderPushesExactlyItsSamples : Prop :=
  ∀ s : State, s.regs.phase = .leader1 ∨ s.regs.phase = .leader2 → s.regs.lcnt.val = 0 → ReadyFor 11025 s →
    ∃ t, run 11025 s = .next t ∧ t.history = s.history ++ List.replicate 11025 (.push 0x40) ∧
      t.regs = { s.regs with
        phase := if s.regs.phase = .leader1 then .header else if s.regs.eofSeen then .done else .body }

/-! ## The stream level and its agreement with the machine -/

/-- Tier 1, functional. 41_bit_encoder.md R124: the sample count of a byte. -/
def Obligations.ByteHasSeventyTwoMinusFourPerOneBit : Prop :=
  (∀ b : Byte, (enc b).length = 5 * popcount b + 9 * (8 - popcount b) ∧ (enc b).length = 72 - 4 * popcount b ∧
    40 ≤ (enc b).length ∧ (enc b).length ≤ 72 ∧ 4 ∣ (enc b).length) ∧
  (enc 0xFF).length = 40 ∧ (enc 0x00).length = 72

/-- Tier 2, functional. 44_top_level.md R174: the sample count of a frame. -/
def Obligations.FrameLengthCountsTheOneBits : Prop :=
  ∀ x : List Byte, (encodeFrame x).length = 2 * 11025 + (x.map fun b => 72 - 4 * popcount b).sum ∧
    (encodeFrame x).length + 4 * (x.map popcount).sum = 22050 + 72 * x.length

/-- Tier 2, functional. 44_top_level.md R170: the second leader falls after the first 0x3C and the eighteen bytes
that follow it, or after the last byte if that comes first. -/
def Obligations.SecondLeaderFallsAfterTheHeader : Prop :=
  (∀ x : List Byte, 0x3C ∉ x → encodeFrame x = leaderSamples ++ x.flatMap enc ++ leaderSamples) ∧
  ∀ p q : List Byte, 0x3C ∉ p →
    encodeFrame (p ++ 0x3C :: q) =
      leaderSamples ++ p.flatMap enc ++ enc 0x3C ++ (q.take 18).flatMap enc ++ leaderSamples ++
        (q.drop 18).flatMap enc

/-- Tier 3, safety. 43_frame_sequencer.md R155, 44_top_level.md R175: at every moment of a run the tokens pulled are
the first of the input's and the samples pushed are the first of `Encode`'s; in DONE both are complete. No fairness
is assumed. -/
def Obligations.EveryRunPushesTheStartOfItsFrame : Prop :=
  ∀ (x : List Byte) (env : Nat → Pins), NoReset env → PresentsInOrder env x → ∀ n,
    pulls (drive env n).history <+: inputTokens x ∧ pushes (drive env n).history <+: encodeFrame x ∧
    ((drive env n).regs.phase = .done →
      pulls (drive env n).history = inputTokens x ∧ pushes (drive env n).history = encodeFrame x)

/-- Tier 3, refinement. 44_top_level.md R172: under a fair environment the run reaches DONE with the input pulled to
its EOF and exactly `Encode(x)` pushed. -/
def Obligations.FairRunEncodesItsInput : Prop :=
  ∀ (x : List Byte) (env : Nat → Pins), NoReset env → PresentsInOrder env x → SinkFair env → SourceFair env →
    ∃ n, (drive env n).regs.phase = .done ∧ pushes (drive env n).history = encodeFrame x ∧
      pulls (drive env n).history = inputTokens x

/-- Tier 3, determinism. 44_top_level.md R173: the transfers and their order depend on the input's bytes alone: of
two runs on the same input, however timed, one has made the first of the other's transfers. -/
def Obligations.TransfersDependOnTheBytesAlone : Prop :=
  ∀ (x : List Byte) (env env' : Nat → Pins), NoReset env → NoReset env' → PresentsInOrder env x →
    PresentsInOrder env' x → ∀ n m,
    ((drive env n).history <+: (drive env' m).history ∨ (drive env' m).history <+: (drive env n).history) ∧
    ((drive env n).regs.phase = .done → (drive env' m).regs.phase = .done →
      (drive env n).history = (drive env' m).history)

/-- Tier 2, liveness_bounded. 44_top_level.md R176: with the sink always ready and every token presented when it is
asked for, the first cycle in DONE is number `len(Encode(x)) + n + 1`. -/
def Obligations.UnstalledRunTakesOneCyclePerTransfer : Prop :=
  ∀ (x : List Byte) (env : Nat → Pins), NoReset env → PresentsInOrder env x → (∀ n, (env n).outReady = true) →
    (∀ n, inReady (drive env n) = true → (env n).inValid = true) →
    ∀ n, (drive env n).regs.phase = .done ↔ (encodeFrame x).length + x.length + 1 ≤ n

/-- Tier 2, safety. 70_reset_and_hazards.md R219: a byte source that never presents EOF never sees `done`. -/
def Obligations.WithoutEofTheRunNeverEnds : Prop :=
  ∀ env : Nat → Pins, (∀ n, (env n).inValid = true → (env n).inEof = false) → ∀ n, done (drive env n) = false

/-- Tier 2, functional. 43_frame_sequencer.md R152: the empty input gives two leaders and nothing else, and the run
ends. -/
def Obligations.EmptyInputGivesTwoLeaders : Prop :=
  encodeFrame [] = List.replicate 22050 0x40 ∧
  ∀ env : Nat → Pins, NoReset env → (∀ n, (env n).outReady = true ∧ (env n).inValid = true ∧ (env n).inEof = true) →
    (drive env 22051).regs.phase = .done ∧ (drive env 22050).regs.phase ≠ .done ∧
    pushes (drive env 22051).history = List.replicate 22050 0x40 ∧ pulls (drive env 22051).history = [.eof]

/-! ## The transfers and the ports -/

/-- Tier 2, functional. 20_memory.md R58, R59: in every state with the invariants, what a step records is what the ports
show in that cycle: at an output transfer the sample on `out_data`, at an input transfer the token presented, and
without a transfer nothing. -/
def Obligations.StepTransfersWhatThePortsShow : Prop :=
  ∀ s : State, Invariants s.regs → ∃ t, step s = .next t ∧
    (outXfer s = true → ∃ x, outData s = .ok x ∧ t.history = s.history ++ [.push x]) ∧
    (inXfer s = true → s.pins.inEof = true → t.history = s.history ++ [.pull .eof]) ∧
    (inXfer s = true → s.pins.inEof = false → t.history = s.history ++ [.pull (.byte s.pins.inData)]) ∧
    (inXfer s = false → outXfer s = false → t.history = s.history)
end

