-- ==== Sys2Proof/Laws/Decode.lean ====
section
/-! SUPPORT. The formats' decoders and encoders agree, and what each token word is. -/

namespace Sys2Proof

@[simp] theorem decodeTone_bit (t : Tone) : decodeTone t.bit = t := by cases t <;> rfl

@[simp] theorem decodePhase_code (p : Phase) : decodePhase p.code = some p := by cases p <;> rfl

@[simp] theorem decodeLeader_code (p : Leader) : decodeLeader p.phase.code = some p := by cases p <;> rfl

/-- A phase code decodes to the one phase that has it. -/
theorem decodePhase_eq_some {c : PhaseCode} {p : Phase} : decodePhase c = some p ↔ c = p.code := by
  constructor
  · intro h
    have all : ∀ c : PhaseCode, ∀ q ∈ [Phase.leader1, .header, .leader2, .body, .done],
        decodePhase c = some q → c = q.code := by decide
    exact all c p (by cases p <;> decide) h
  · rintro rfl
    exact decodePhase_code p

/-- The reserved codes are the three of 30_encoding.md R84. -/
theorem decodePhase_eq_none {c : PhaseCode} : decodePhase c = none ↔ c = 5 ∨ c = 6 ∨ c = 7 := by
  revert c
  decide

theorem decodeLeader_eq_some {c : PhaseCode} {p : Leader} : decodeLeader c = some p ↔ c = p.phase.code := by
  constructor
  · intro h
    have all : ∀ c : PhaseCode, ∀ q ∈ [Leader.first, .second], decodeLeader c = some q → c = q.phase.code := by
      decide
    exact all c p (by cases p <;> decide) h
  · rintro rfl
    exact decodeLeader_code p

@[simp] theorem tokenEofBit_tokenWord (e : Bool) (d : Byte) : tokenEofBit (tokenWord e d) = e := by
  simp only [tokenEofBit, tokenWord]
  rw [BitVec.getLsbD_append]
  cases e <;> simp

@[simp] theorem tokenData_tokenWord (e : Bool) (d : Byte) : tokenData (tokenWord e d) = d := by
  apply BitVec.eq_of_getLsbD_eq
  intro i hi
  simp only [tokenData, tokenWord, BitVec.getLsbD_extractLsb', BitVec.getLsbD_append]
  simp [hi]

/-- Every TOKEN word is the word of its two fields (30_encoding.md R81). -/
theorem tokenWord_fields (t : TokenWord) : tokenWord (tokenEofBit t) (tokenData t) = t := by
  apply BitVec.eq_of_getLsbD_eq
  intro i hi
  simp only [tokenWord, tokenData, tokenEofBit, BitVec.getLsbD_append, BitVec.getLsbD_extractLsb']
  by_cases h : i < 8
  · simp [h]
  · obtain rfl : i = 8 := by omega
    cases h8 : t.getLsbD 8 <;> simp

/-- The token a TOKEN word is (20_memory.md R58). -/
@[simp] theorem decodeToken_tokenWord (e : Bool) (d : Byte) :
    decodeToken (tokenWord e d) = if e then .eof else .byte d := by
  simp [decodeToken]

/-- What a TOKEN word is to the frame sequencer (30_encoding.md R91). -/
@[simp] theorem decodeTokenOp_tokenWord (searching e : Bool) (d : Byte) :
    decodeTokenOp searching (tokenWord e d) =
      if e then .eof else if searching && d == Config.syncByte then .sync else .byte d := by
  cases e <;> simp [decodeTokenOp]

@[simp] theorem decodeToken_word (t : Token) : decodeToken t.word = t := by
  cases t <;> simp [Token.word]

end Sys2Proof
end

