-- ==== Sys2Proof/Laws/State.lean ====
section
/-! SUPPORT. One lemma per field per update of the registers and of the state, each true by rfl. -/

namespace Sys2Proof.Machine

/-! ## Updates of the registers -/

section
variable (r : Regs)
@[simp] theorem setHaveByte_phase : (setHaveByte r).phase = r.phase := rfl
@[simp] theorem setHaveByte_lcnt : (setHaveByte r).lcnt = r.lcnt := rfl
@[simp] theorem setHaveByte_haveByte : (setHaveByte r).haveByte = true := rfl
@[simp] theorem setHaveByte_byteReg : (setHaveByte r).byteReg = r.byteReg := rfl
@[simp] theorem setHaveByte_bitIdx : (setHaveByte r).bitIdx = r.bitIdx := rfl
@[simp] theorem setHaveByte_sampIdx : (setHaveByte r).sampIdx = r.sampIdx := rfl
@[simp] theorem setHaveByte_syncFound : (setHaveByte r).syncFound = r.syncFound := rfl
@[simp] theorem setHaveByte_nameCnt : (setHaveByte r).nameCnt = r.nameCnt := rfl
@[simp] theorem setHaveByte_eofSeen : (setHaveByte r).eofSeen = r.eofSeen := rfl
end

section
variable (r : Regs)
@[simp] theorem clearHaveByte_phase : (clearHaveByte r).phase = r.phase := rfl
@[simp] theorem clearHaveByte_lcnt : (clearHaveByte r).lcnt = r.lcnt := rfl
@[simp] theorem clearHaveByte_haveByte : (clearHaveByte r).haveByte = false := rfl
@[simp] theorem clearHaveByte_byteReg : (clearHaveByte r).byteReg = r.byteReg := rfl
@[simp] theorem clearHaveByte_bitIdx : (clearHaveByte r).bitIdx = r.bitIdx := rfl
@[simp] theorem clearHaveByte_sampIdx : (clearHaveByte r).sampIdx = r.sampIdx := rfl
@[simp] theorem clearHaveByte_syncFound : (clearHaveByte r).syncFound = r.syncFound := rfl
@[simp] theorem clearHaveByte_nameCnt : (clearHaveByte r).nameCnt = r.nameCnt := rfl
@[simp] theorem clearHaveByte_eofSeen : (clearHaveByte r).eofSeen = r.eofSeen := rfl
end

section
variable (r : Regs)
@[simp] theorem setSyncFound_phase : (setSyncFound r).phase = r.phase := rfl
@[simp] theorem setSyncFound_lcnt : (setSyncFound r).lcnt = r.lcnt := rfl
@[simp] theorem setSyncFound_haveByte : (setSyncFound r).haveByte = r.haveByte := rfl
@[simp] theorem setSyncFound_byteReg : (setSyncFound r).byteReg = r.byteReg := rfl
@[simp] theorem setSyncFound_bitIdx : (setSyncFound r).bitIdx = r.bitIdx := rfl
@[simp] theorem setSyncFound_sampIdx : (setSyncFound r).sampIdx = r.sampIdx := rfl
@[simp] theorem setSyncFound_syncFound : (setSyncFound r).syncFound = true := rfl
@[simp] theorem setSyncFound_nameCnt : (setSyncFound r).nameCnt = r.nameCnt := rfl
@[simp] theorem setSyncFound_eofSeen : (setSyncFound r).eofSeen = r.eofSeen := rfl
end

section
variable (r : Regs)
@[simp] theorem setEofSeen_phase : (setEofSeen r).phase = r.phase := rfl
@[simp] theorem setEofSeen_lcnt : (setEofSeen r).lcnt = r.lcnt := rfl
@[simp] theorem setEofSeen_haveByte : (setEofSeen r).haveByte = r.haveByte := rfl
@[simp] theorem setEofSeen_byteReg : (setEofSeen r).byteReg = r.byteReg := rfl
@[simp] theorem setEofSeen_bitIdx : (setEofSeen r).bitIdx = r.bitIdx := rfl
@[simp] theorem setEofSeen_sampIdx : (setEofSeen r).sampIdx = r.sampIdx := rfl
@[simp] theorem setEofSeen_syncFound : (setEofSeen r).syncFound = r.syncFound := rfl
@[simp] theorem setEofSeen_nameCnt : (setEofSeen r).nameCnt = r.nameCnt := rfl
@[simp] theorem setEofSeen_eofSeen : (setEofSeen r).eofSeen = true := rfl
end

section
variable (r : Regs) (b : Byte)
@[simp] theorem loadByte_phase : (loadByte b r).phase = r.phase := rfl
@[simp] theorem loadByte_lcnt : (loadByte b r).lcnt = r.lcnt := rfl
@[simp] theorem loadByte_haveByte : (loadByte b r).haveByte = true := rfl
@[simp] theorem loadByte_byteReg : (loadByte b r).byteReg = b := rfl
@[simp] theorem loadByte_bitIdx : (loadByte b r).bitIdx = 0 := rfl
@[simp] theorem loadByte_sampIdx : (loadByte b r).sampIdx = 0 := rfl
@[simp] theorem loadByte_syncFound : (loadByte b r).syncFound = r.syncFound := rfl
@[simp] theorem loadByte_nameCnt : (loadByte b r).nameCnt = r.nameCnt := rfl
@[simp] theorem loadByte_eofSeen : (loadByte b r).eofSeen = r.eofSeen := rfl
end

section
variable (r : Regs)
@[simp] theorem countName_phase : (countName r).phase = r.phase := rfl
@[simp] theorem countName_lcnt : (countName r).lcnt = r.lcnt := rfl
@[simp] theorem countName_haveByte : (countName r).haveByte = r.haveByte := rfl
@[simp] theorem countName_byteReg : (countName r).byteReg = r.byteReg := rfl
@[simp] theorem countName_bitIdx : (countName r).bitIdx = r.bitIdx := rfl
@[simp] theorem countName_sampIdx : (countName r).sampIdx = r.sampIdx := rfl
@[simp] theorem countName_syncFound : (countName r).syncFound = r.syncFound := rfl
@[simp] theorem countName_nameCnt : (countName r).nameCnt = r.nameCnt + 1 := rfl
@[simp] theorem countName_eofSeen : (countName r).eofSeen = r.eofSeen := rfl
end

section
variable (r : Regs)
@[simp] theorem endInput_phase : (endInput r).phase = if r.phase == .header then .leader2 else .done := rfl
@[simp] theorem endInput_lcnt : (endInput r).lcnt = r.lcnt := rfl
@[simp] theorem endInput_haveByte : (endInput r).haveByte = r.haveByte := rfl
@[simp] theorem endInput_byteReg : (endInput r).byteReg = r.byteReg := rfl
@[simp] theorem endInput_bitIdx : (endInput r).bitIdx = r.bitIdx := rfl
@[simp] theorem endInput_sampIdx : (endInput r).sampIdx = r.sampIdx := rfl
@[simp] theorem endInput_syncFound : (endInput r).syncFound = r.syncFound := rfl
@[simp] theorem endInput_nameCnt : (endInput r).nameCnt = r.nameCnt := rfl
@[simp] theorem endInput_eofSeen : (endInput r).eofSeen = true := rfl
end

section
variable (r : Regs)
@[simp] theorem endByte_phase : (endByte r).phase = if r.phase == .header && hdrFull r then .leader2 else r.phase := rfl
@[simp] theorem endByte_lcnt : (endByte r).lcnt = r.lcnt := rfl
@[simp] theorem endByte_haveByte : (endByte r).haveByte = false := rfl
@[simp] theorem endByte_byteReg : (endByte r).byteReg = r.byteReg := rfl
@[simp] theorem endByte_bitIdx : (endByte r).bitIdx = 0 := rfl
@[simp] theorem endByte_sampIdx : (endByte r).sampIdx = 0 := rfl
@[simp] theorem endByte_syncFound : (endByte r).syncFound = r.syncFound := rfl
@[simp] theorem endByte_nameCnt : (endByte r).nameCnt = r.nameCnt := rfl
@[simp] theorem endByte_eofSeen : (endByte r).eofSeen = r.eofSeen := rfl
end

/-! ## Updates of the state -/

section
variable (s : State) (e : Event) (r : Regs)
@[simp] theorem transfer_regs : (s.transfer e r).regs = r := rfl
@[simp] theorem transfer_pins : (s.transfer e r).pins = s.pins := rfl
@[simp] theorem transfer_coming : (s.transfer e r).coming = s.coming := rfl
@[simp] theorem transfer_history : (s.transfer e r).history = s.history ++ [e] := rfl
@[simp] theorem transfer_cycle : (s.transfer e r).cycle = s.cycle := rfl
end

section
variable (s : State) (r : Regs)
@[simp] theorem pull_regs : (pull s r).regs = r := rfl
@[simp] theorem pull_pins : (pull s r).pins = s.pins := rfl
@[simp] theorem pull_coming : (pull s r).coming = s.coming := rfl
@[simp] theorem pull_history : (pull s r).history = s.history ++ [.pull (portToken s.pins)] := rfl
@[simp] theorem pull_cycle : (pull s r).cycle = s.cycle := rfl
end

section
variable (s : State)
@[simp] theorem takeReset_regs : (takeReset s).regs = Regs.reset := rfl
@[simp] theorem takeReset_pins : (takeReset s).pins = s.pins := rfl
@[simp] theorem takeReset_coming : (takeReset s).coming = s.coming := rfl
@[simp] theorem takeReset_history : (takeReset s).history = s.history := rfl
@[simp] theorem takeReset_cycle : (takeReset s).cycle = s.cycle := rfl
end

section
variable (s : State)
@[simp] theorem tick_regs : (tick s).regs = s.regs := rfl
@[simp] theorem tick_pins : (tick s).pins = s.coming.headD Pins.idle := rfl
@[simp] theorem tick_coming : (tick s).coming = s.coming.tail := rfl
@[simp] theorem tick_history : (tick s).history = s.history := rfl
@[simp] theorem tick_cycle : (tick s).cycle = s.cycle + 1 := rfl
end

/-- A pull is a transfer of the presented token. -/
theorem pull_eq_transfer (s : State) (r : Regs) : pull s r = s.transfer (.pull (portToken s.pins)) r := rfl

end Sys2Proof.Machine
end

