-- ==== Sys2Proof/Laws/Ops.lean ====
section
/-! SUPPORT. One lemma for each shared operation, saying once what it can do. -/

namespace Sys2Proof.Machine

/-! ## The phases -/

@[simp] theorem inLeader_iff (r : Regs) : inLeader r = true ↔ r.phase = .leader1 ∨ r.phase = .leader2 := by
  simp [inLeader]

@[simp] theorem inDataPhase_iff (r : Regs) : inDataPhase r = true ↔ r.phase = .header ∨ r.phase = .body := by
  simp [inDataPhase]

theorem inLeader_eq_false_iff (r : Regs) : inLeader r = false ↔ r.phase ≠ .leader1 ∧ r.phase ≠ .leader2 := by
  simp [inLeader]

theorem searching_iff (r : Regs) : searching r = true ↔ r.phase = .header ∧ r.syncFound = false := by
  simp [searching]

theorem namingPhase_iff (r : Regs) : namingPhase r = true ↔ r.phase = .header ∧ r.syncFound = true := by
  simp [namingPhase]

theorem hdrFull_iff (r : Regs) : hdrFull r = true ↔ r.syncFound = true ∧ r.nameCnt.val = 18 := by
  simp [hdrFull]

/-- The selected bit decides the tone. -/
theorem tone_eq_bitTone (r : Regs) : tone r = bitTone r.byteReg r.bitIdx.val := by
  simp only [tone, toneBit, bitTone]
  cases r.byteReg.getLsbD r.bitIdx.val <;> rfl

/-! ## The tone-table ROM -/

/-- The ROM is in the canonical form of a memory. -/
theorem rom_wf : Memory.wf Config.rom = true := by decide

@[simp] theorem toneTable_length (t : Tone) : (toneTable t).length = cellLen t := by cases t <;> rfl

/-- Inside a cell the ROM holds the tone's table (20_memory.md R51, R52). -/
theorem romRead_in_cell (t : Tone) (i : Fin Config.spaceLen) (h : i.val < cellLen t) :
    romRead (romAddr t i) = .ok ((toneTable t)[i.val]'(by simpa using h)) := by
  have all : ∀ t ∈ [Tone.space, .mark], ∀ i : Fin Config.spaceLen, ∀ h : i.val < (toneTable t).length,
      romRead (romAddr t i) = .ok (toneTable t)[i.val] := by decide
  exact all t (by cases t <;> decide) i (by simpa using h)

/-- Past the end of a Mark cell lie holes (20_memory.md R53). -/
theorem romRead_past_mark (i : Fin Config.spaceLen) (h : 5 ≤ i.val) :
    romRead (romAddr .mark i) = .error (.romHole (romAddr .mark i)) := by
  revert i
  decide

/-- A read that answers a sample was made inside the cell. -/
theorem romRead_eq_ok {t : Tone} {i : Fin Config.spaceLen} {x : Sample} (h : romRead (romAddr t i) = .ok x) :
    ∃ hi : i.val < cellLen t, x = (toneTable t)[i.val]'(by simpa using hi) := by
  have hi : i.val < cellLen t := by
    cases t with
    | space => exact i.isLt
    | mark =>
      by_contra hge
      rw [romRead_past_mark i (by simpa [cellLen] using hge)] at h
      cases h
  refine ⟨hi, ?_⟩
  rw [romRead_in_cell t i hi] at h
  exact (Except.ok.inj h).symm

/-! ## The presented sample -/

/-- In a leader the silence value is presented (10_state.md R35). -/
theorem outData_in_leader {s : State} (hr : s.pins.rst = false) (hl : inLeader s.regs = true) :
    outData s = .ok Config.silence := by
  simp [outData, outValid, hr, hl]

/-- In a cell the ROM's entry is presented (10_state.md R35). -/
theorem outData_in_cell {s : State} (hr : s.pins.rst = false)
    (hp : s.regs.phase = .header ∨ s.regs.phase = .body) (hb : s.regs.haveByte = true) :
    outData s = romRead (romAddr (tone s.regs) s.regs.sampIdx) := by
  rcases hp with hp | hp <;> simp [outData, outValid, inLeader, inDataPhase, hr, hp, hb]

/-! ## Transfers -/

theorem inXfer_iff (s : State) :
    inXfer s = true ↔ s.pins.rst = false ∧ (s.regs.phase = .header ∨ s.regs.phase = .body) ∧
      s.regs.haveByte = false ∧ s.pins.inValid = true := by
  simp [inXfer, inReady, and_assoc]

theorem outXfer_iff (s : State) :
    outXfer s = true ↔ s.pins.rst = false ∧ (s.regs.phase = .leader1 ∨ s.regs.phase = .leader2 ∨ s.regs.haveByte = true) ∧
      s.pins.outReady = true := by
  simp [outXfer, outValid, and_assoc, or_assoc]

/-- The token presented, from the two port levels (20_memory.md R58). -/
theorem portToken_eq (p : Pins) : portToken p = if p.inEof then .eof else .byte p.inData := by
  simp [portToken, portWord]

/-- The token operation, from the port levels and the search (30_encoding.md R91). -/
theorem portOp_eq (s : State) :
    portOp s = if s.pins.inEof then .eof
      else if searching s.regs && s.pins.inData == Config.syncByte then .sync else .byte s.pins.inData := by
  simp [portOp, portWord]

/-- What `present` can answer. -/
theorem present_eq_next {x : Except Fault Sample} {adv : Regs → Regs} {s u : State} :
    present x adv s = .next u ↔
      ∃ v, x = .ok v ∧ ((outXfer s = true ∧ u = s.transfer (.push v) (adv s.regs)) ∨ (outXfer s = false ∧ u = s)) := by
  cases x with
  | error f => simp [present]
  | ok v =>
    cases h : outXfer s <;> simp [present, h, eq_comm]

/-- What the edge of an operation can answer. -/
theorem clocked_eq_next {sel : Bool} {s u : State} {e : Host.Outcome State Fault Refusal} :
    clocked sel s e = .next u ↔
      (s.pins.rst = true ∧ u = takeReset s) ∨ (s.pins.rst = false ∧ sel = true ∧ e = .next u) := by
  cases h : s.pins.rst <;> cases sel <;> simp [clocked, h, eq_comm]

theorem clocked_running {s : State} {e : Host.Outcome State Fault Refusal} (hr : s.pins.rst = false) :
    clocked true s e = e := by
  simp [clocked, hr]

theorem clocked_reset {sel : Bool} {s : State} {e : Host.Outcome State Fault Refusal} (hr : s.pins.rst = true) :
    clocked sel s e = .next (takeReset s) := by
  simp [clocked, hr]

/-! ## The counters -/

theorem lcnt_succ_val {r : Regs} (h : lastLead r = false) : (r.lcnt + 1).val = r.lcnt.val + 1 := by
  have h1 := r.lcnt.isLt
  simp only [lastLead, Config.leaderLen, beq_eq_false_iff_ne, ne_eq] at h h1
  rw [Fin.val_add]
  simp only [Fin.val_one, Config.leaderLen]
  omega

theorem bitIdx_succ_val {r : Regs} (h : lastBit r = false) : (r.bitIdx + 1).val = r.bitIdx.val + 1 := by
  have h1 := r.bitIdx.isLt
  simp only [lastBit, beq_eq_false_iff_ne, ne_eq] at h
  rw [Fin.val_add]
  simp only [Fin.val_one]
  omega

theorem sampIdx_succ_val {r : Regs} (h : r.sampIdx.val ≠ 8) : (r.sampIdx + 1).val = r.sampIdx.val + 1 := by
  have h1 := r.sampIdx.isLt
  simp only [Config.spaceLen] at h1
  rw [Fin.val_add]
  simp only [Fin.val_one, Config.spaceLen]
  omega

theorem nameCnt_succ_val {r : Regs} (h : r.nameCnt.val ≠ 18) : (r.nameCnt + 1).val = r.nameCnt.val + 1 := by
  have h1 := r.nameCnt.isLt
  simp only [Config.nameLen] at h1
  rw [Fin.val_add]
  simp only [Fin.val_one, Config.nameLen]
  omega

/-- Inside a cell and before its last sample the next index is still inside. -/
theorem sampIdx_succ_in_cell {t : Tone} {r : Regs} (hin : r.sampIdx.val < cellLen t) (h : lastSamp t r = false) :
    (r.sampIdx + 1).val = r.sampIdx.val + 1 ∧ r.sampIdx.val + 1 < cellLen t := by
  simp only [lastSamp, beq_eq_false_iff_ne, ne_eq] at h
  refine ⟨sampIdx_succ_val ?_, by omega⟩
  cases t <;> simp only [cellLen, Config.markLen, Config.spaceLen] at hin h <;> omega

end Sys2Proof.Machine
end

