-- ==== Sys2Proof/Laws/PerInstr.lean ====
section
/-! SUPPORT. The family WordFits: every operation's word fits its format, and every site that reads it reads that format. -/

namespace Sys2Proof.Laws.WordFits

/-- The operation's word has no bit above its format's width (30_encoding.md R81 to R87), and a site at which the
operation can be read reads words of that format. -/
def Statement (i : Instr) : Prop :=
  encode i < 2 ^ i.format.width ∧ ∀ site : Site, i.wellFormedAt site = true → site.format = i.format

theorem site_format {site t : Site} (h : (site == t) = true) : site.format = t.format := by
  rw [eq_of_beq h]

theorem emitSpace : Statement .emitSpace := ⟨by decide, fun _ h => site_format h⟩

theorem emitMark : Statement .emitMark := ⟨by decide, fun _ h => site_format h⟩

theorem encodeByte (b : Byte) : Statement (.encodeByte b) := ⟨b.isLt, fun _ h => site_format h⟩

theorem emitLeader (p : Leader) : Statement (.emitLeader p) := ⟨by cases p <;> decide, fun _ h => site_format h⟩

theorem phLeader1 : Statement .phLeader1 := ⟨by decide, fun _ h => site_format h⟩

theorem phHeader : Statement .phHeader := ⟨by decide, fun _ h => site_format h⟩

theorem phLeader2 : Statement .phLeader2 := ⟨by decide, fun _ h => site_format h⟩

theorem phBody : Statement .phBody := ⟨by decide, fun _ h => site_format h⟩

theorem phDone : Statement .phDone := ⟨by decide, fun _ h => site_format h⟩

theorem tokByte (d : Byte) : Statement (.tokByte d) := by
  refine ⟨(Token.byte d).word.isLt, fun site h => ?_⟩
  cases site with
  | tokenPort _ => rfl
  | _ => simp [Instr.wellFormedAt] at h

theorem tokSync : Statement .tokSync := ⟨by decide, fun _ h => site_format h⟩

theorem tokEof : Statement .tokEof := ⟨by decide, fun _ h => eq_of_beq h⟩

end Sys2Proof.Laws.WordFits
end

