-- ==== Sys2Proof/Laws/Step.lean ====
section
/-! SUPPORT. What one clock edge can do, said once: every later proof about a step goes through `step_edge`. -/

namespace Sys2Proof.Machine

/-- The phase register always fetches its phase's operation. -/
theorem fetch_eq (s : State) : fetch s = .ok s.regs.phase.toInstr := by
  unfold fetch
  cases s.regs.phase <;> rfl

/-- One step is one edge of the phase's operation, and the environment's next levels. -/
theorem step_eq (s : State) :
    step s = afterEdge (exec s.regs.phase.toInstr s) := by
  simp only [step, fetch_eq]

theorem afterEdge_eq_next {o : Host.Outcome State Fault Refusal} {t : State} :
    afterEdge o = .next t ↔ ∃ u, o = .next u ∧ t = tick u := by
  cases o <;> simp [afterEdge, eq_comm]

/-- Everything one clock edge can do to the registers and the record, guards included. -/
inductive Edge (s : State) : State → Prop where
  /-- 70_reset_and_hazards.md R210. -/
  | reset (hr : s.pins.rst = true) : Edge s (takeReset s)
  /-- No transfer: nothing changes. -/
  | wait (hr : s.pins.rst = false) (hi : inXfer s = false)
      (ho : s.regs.phase = .done ∨ outXfer s = false) : Edge s s
  /-- 42_leader_generator.md R131. -/
  | leader (hr : s.pins.rst = false) (hp : s.regs.phase = .leader1 ∨ s.regs.phase = .leader2)
      (ho : s.pins.outReady = true) : Edge s (s.transfer (.push Config.silence) (advanceLeader s.regs))
  /-- 40_tone_synthesizer.md R112. -/
  | sample (hr : s.pins.rst = false) (hp : s.regs.phase = .header ∨ s.regs.phase = .body)
      (hb : s.regs.haveByte = true) (ho : s.pins.outReady = true) (hc : s.regs.sampIdx.val < cellLen (tone s.regs)) :
      Edge s (s.transfer (.push ((toneTable (tone s.regs))[s.regs.sampIdx.val]'(by simpa using hc)))
        (advanceCell (tone s.regs) s.regs))
  /-- 43_frame_sequencer.md R142 and R148. -/
  | load (hx : inXfer s = true) (he : s.pins.inEof = false)
      (hn : s.regs.phase = .body ∨ (s.regs.phase = .header ∧ s.regs.syncFound = false ∧ s.pins.inData ≠ Config.syncByte)) :
      Edge s (s.transfer (.pull (.byte s.pins.inData)) (loadByte s.pins.inData s.regs))
  /-- 43_frame_sequencer.md R143. -/
  | sync (hx : inXfer s = true) (he : s.pins.inEof = false) (hp : s.regs.phase = .header)
      (hs : s.regs.syncFound = false) (hd : s.pins.inData = Config.syncByte) :
      Edge s (s.transfer (.pull (.byte s.pins.inData)) (setSyncFound (loadByte s.pins.inData s.regs)))
  /-- 43_frame_sequencer.md R144. -/
  | name (hx : inXfer s = true) (he : s.pins.inEof = false) (hp : s.regs.phase = .header)
      (hs : s.regs.syncFound = true) (hf : hdrFull s.regs = false) :
      Edge s (s.transfer (.pull (.byte s.pins.inData)) (countName (loadByte s.pins.inData s.regs)))
  /-- 43_frame_sequencer.md R145 and R149. -/
  | eof (hx : inXfer s = true) (he : s.pins.inEof = true) :
      Edge s (s.transfer (.pull .eof) (endInput s.regs))

/-! ## The phase operations, unfolded once -/

/-- ENCODE_BYTE's edge is the edge of the selected bit's cell. -/
theorem execEncodeByte_eq {s : State} (hr : s.pins.rst = false)
    (hp : s.regs.phase = .header ∨ s.regs.phase = .body) (hb : s.regs.haveByte = true) :
    execEncodeByte s.regs.byteReg s = emitSample (tone s.regs) s := by
  have hd : inDataPhase s.regs = true := (inDataPhase_iff _).2 hp
  have hsel : selected (.encodeByte s.regs.byteReg) s = true := by simp [selected, hd, hb]
  rw [execEncodeByte, hsel, clocked_running hr]
  cases ht : tone s.regs with
  | space =>
    have hs : selected .emitSpace s = true := by simp [selected, hd, hb, ht]
    simp only [execEmitSpace, hs, clocked_running hr]
  | mark =>
    have hs : selected .emitMark s = true := by simp [selected, hd, hb, ht]
    simp only [execEmitMark, hs, clocked_running hr]

/-- EMIT_LEADER's edge in its phase. -/
theorem execEmitLeader_eq {s : State} (p : Leader) (hr : s.pins.rst = false) (hp : s.regs.phase = p.phase) :
    execEmitLeader p s = present (.ok Config.silence) advanceLeader s := by
  have hsel : selected (.emitLeader p) s = true := by simp [selected, hp]
  rw [execEmitLeader, hsel, clocked_running hr]

/-- The edge of a leader phase. -/
theorem exec_leader_phase {s : State} (hr : s.pins.rst = false)
    (hp : s.regs.phase = .leader1 ∨ s.regs.phase = .leader2) :
    exec s.regs.phase.toInstr s = present (.ok Config.silence) advanceLeader s := by
  rcases hp with hp | hp
  · have hsel : selected .phLeader1 s = true := by simp [selected, hp]
    simp only [hp, Phase.toInstr, exec, execPhLeader1, hsel, clocked_running hr]
    exact execEmitLeader_eq .first hr hp
  · have hsel : selected .phLeader2 s = true := by simp [selected, hp]
    simp only [hp, Phase.toInstr, exec, execPhLeader2, hsel, clocked_running hr]
    exact execEmitLeader_eq .second hr hp

/-- The edge of a data phase. -/
theorem exec_data_phase {s : State} (hr : s.pins.rst = false)
    (hp : s.regs.phase = .header ∨ s.regs.phase = .body) : exec s.regs.phase.toInstr s = dataPhase s := by
  rcases hp with hp | hp
  · have hsel : selected .phHeader s = true := by simp [selected, hp]
    simp only [hp, Phase.toInstr, exec, execPhHeader, hsel, clocked_running hr]
  · have hsel : selected .phBody s = true := by simp [selected, hp]
    simp only [hp, Phase.toInstr, exec, execPhBody, hsel, clocked_running hr]

/-- The edge of a data phase with a byte pending. -/
theorem exec_pending_byte {s : State} (hr : s.pins.rst = false)
    (hp : s.regs.phase = .header ∨ s.regs.phase = .body) (hb : s.regs.haveByte = true) :
    exec s.regs.phase.toInstr s = emitSample (tone s.regs) s := by
  rw [exec_data_phase hr hp, dataPhase, if_pos hb, execEncodeByte_eq hr hp hb]

/-- The edge of a data phase with no byte pending. -/
theorem exec_no_byte {s : State} (hr : s.pins.rst = false)
    (hp : s.regs.phase = .header ∨ s.regs.phase = .body) (hb : s.regs.haveByte = false) :
    exec s.regs.phase.toInstr s = awaitToken s := by
  rw [exec_data_phase hr hp, dataPhase, if_neg (by simp [hb])]

/-- The edge of DONE. -/
theorem exec_done_phase {s : State} (hr : s.pins.rst = false) (hp : s.regs.phase = .done) :
    exec s.regs.phase.toInstr s = .next s := by
  have hsel : selected .phDone s = true := by simp [selected, hp]
  simp only [hp, Phase.toInstr, exec, execPhDone, hsel, clocked_running hr]

/-- The edge of any phase under reset. -/
theorem exec_phase_reset {s : State} (hr : s.pins.rst = true) :
    exec s.regs.phase.toInstr s = .next (takeReset s) := by
  cases s.regs.phase <;>
    simp only [Phase.toInstr, exec, execPhLeader1, execPhHeader, execPhLeader2, execPhBody, execPhDone,
      clocked_reset hr]

/-! ## The token operations, unfolded once -/

theorem awaitToken_wait {s : State} (hx : inXfer s = false) : awaitToken s = .next s := by
  simp [awaitToken, hx]

/-- EOF is presented. -/
theorem awaitToken_eof {s : State} (hx : inXfer s = true) (he : s.pins.inEof = true) :
    awaitToken s = .next (s.transfer (.pull .eof) (endInput s.regs)) := by
  have hr := ((inXfer_iff s).1 hx).1
  have hop : portOp s = .eof := by rw [portOp_eq, if_pos he]
  have hsel : selected .tokEof s = true := by simp [selected, hx, hop]
  have htok : portToken s.pins = .eof := by rw [portToken_eq, if_pos he]
  simp only [awaitToken, hx, if_true, hop, execTokEof, hsel, clocked_running hr, pull_eq_transfer, htok]

/-- The sync byte is presented and searched for. -/
theorem awaitToken_sync {s : State} (hx : inXfer s = true) (he : s.pins.inEof = false)
    (hs : searching s.regs = true) (hd : s.pins.inData = Config.syncByte) :
    awaitToken s = .next (s.transfer (.pull (.byte s.pins.inData)) (setSyncFound (loadByte s.pins.inData s.regs))) := by
  have hr := ((inXfer_iff s).1 hx).1
  have hop : portOp s = .sync := by simp [portOp_eq, he, hs, hd]
  have hsel : selected .tokSync s = true := by simp [selected, hx, hop]
  have htok : portToken s.pins = .byte s.pins.inData := by simp [portToken_eq, he]
  simp only [awaitToken, hx, if_true, hop, execTokSync, hsel, clocked_running hr, pull_eq_transfer, htok, hd]

/-- Any other byte is presented. -/
theorem awaitToken_byte {s : State} (hx : inXfer s = true) (he : s.pins.inEof = false)
    (hs : ¬(searching s.regs = true ∧ s.pins.inData = Config.syncByte)) :
    awaitToken s =
      if namingPhase s.regs then
        if hdrFull s.regs then .refused .nameCountPastEnd
        else .next (s.transfer (.pull (.byte s.pins.inData)) (countName (loadByte s.pins.inData s.regs)))
      else .next (s.transfer (.pull (.byte s.pins.inData)) (loadByte s.pins.inData s.regs)) := by
  have hr := ((inXfer_iff s).1 hx).1
  have hop : portOp s = .byte s.pins.inData := by
    rw [portOp_eq, he, if_neg Bool.false_ne_true, if_neg]
    rwa [Bool.and_eq_true, beq_iff_eq]
  have hsel : selected (.tokByte s.pins.inData) s = true := by simp [selected, hx, hop]
  have htok : portToken s.pins = .byte s.pins.inData := by simp [portToken_eq, he]
  simp only [awaitToken, hx, if_true, hop, execTokByte, hsel, clocked_running hr, pull_eq_transfer, htok]

/-! ## Every edge is a case of `Edge`, and every case is an edge -/

/-- The edge of awaiting a token: it is taken by the operation it stands for, or the block waits. -/
theorem awaitToken_edge {s u : State} (hr : s.pins.rst = false)
    (hp : s.regs.phase = .header ∨ s.regs.phase = .body) (hb : s.regs.haveByte = false)
    (h : awaitToken s = .next u) : Edge s u := by
  cases hx : inXfer s with
  | false =>
    rw [awaitToken_wait hx] at h
    cases h
    refine .wait hr hx (.inr ?_)
    rcases hp with hp | hp <;> simp [outXfer, outValid, inLeader, hp, hb]
  | true =>
    cases he : s.pins.inEof with
    | true =>
      rw [awaitToken_eof hx he] at h
      cases h
      exact .eof hx he
    | false =>
      by_cases hs : searching s.regs = true ∧ s.pins.inData = Config.syncByte
      · rw [awaitToken_sync hx he hs.1 hs.2] at h
        cases h
        obtain ⟨hph, hsy⟩ := (searching_iff _).1 hs.1
        exact .sync hx he hph hsy hs.2
      · rw [awaitToken_byte hx he hs] at h
        rw [searching_iff] at hs
        split at h
        · rename_i hn
          obtain ⟨hph, hsy⟩ := (namingPhase_iff _).1 hn
          split at h
          · cases h
          · rename_i hf
            cases h
            exact .name hx he hph hsy (by simpa using hf)
        · rename_i hn
          cases h
          rw [namingPhase_iff] at hn
          refine .load hx he ?_
          rcases hp with hp | hp
          · have hsy : s.regs.syncFound = false := by
              cases hc : s.regs.syncFound with
              | false => rfl
              | true => exact absurd ⟨hp, hc⟩ hn
            exact .inr ⟨hp, hsy, fun hd => hs ⟨⟨hp, hsy⟩, hd⟩⟩
          · exact .inl hp

/-- Every edge of the phase's operation is one of the cases of `Edge`. -/
theorem exec_phase_edge {s u : State} (h : exec s.regs.phase.toInstr s = .next u) : Edge s u := by
  cases hr : s.pins.rst with
  | true =>
    rw [exec_phase_reset hr] at h
    cases h
    exact .reset hr
  | false =>
    have leader (hp : s.regs.phase = .leader1 ∨ s.regs.phase = .leader2) : Edge s u := by
      rw [exec_leader_phase hr hp] at h
      obtain ⟨v, hv, hcase⟩ := present_eq_next.1 h
      cases hv
      rcases hcase with ⟨ho, rfl⟩ | ⟨ho, rfl⟩
      · exact .leader hr hp ((outXfer_iff s).1 ho).2.2
      · refine .wait hr ?_ (.inr ho)
        rcases hp with hp | hp <;> simp [inXfer, inReady, inDataPhase, hp]
    have data (hp : s.regs.phase = .header ∨ s.regs.phase = .body) : Edge s u := by
      cases hb : s.regs.haveByte with
      | true =>
        rw [exec_pending_byte hr hp hb] at h
        obtain ⟨v, hv, hcase⟩ := present_eq_next.1 h
        obtain ⟨hc, rfl⟩ := romRead_eq_ok hv
        rcases hcase with ⟨ho, rfl⟩ | ⟨ho, rfl⟩
        · exact .sample hr hp hb ((outXfer_iff s).1 ho).2.2 hc
        · exact .wait hr (by simp [inXfer, inReady, hb]) (.inr ho)
      | false =>
        rw [exec_no_byte hr hp hb] at h
        exact awaitToken_edge hr hp hb h
    cases hp : s.regs.phase with
    | leader1 => exact leader (.inl hp)
    | header => exact data (.inl hp)
    | leader2 => exact leader (.inr hp)
    | body => exact data (.inr hp)
    | done =>
      rw [exec_done_phase hr hp] at h
      cases h
      exact .wait hr (by simp [inXfer, inReady, inDataPhase, hp]) (.inl hp)

/-- Everything a step can do when it answers a next state. -/
theorem step_edge {s t : State} (h : step s = .next t) : ∃ u, Edge s u ∧ t = tick u := by
  rw [step_eq] at h
  obtain ⟨u, he, rfl⟩ := afterEdge_eq_next.1 h
  exact ⟨u, exec_phase_edge he, rfl⟩

/-- A step that transfers does what its case of `Edge` says. -/
theorem exec_phase_of_transfer {s u : State} (h : Edge s u) (hx : inXfer s = true ∨ outXfer s = true)
    (hd : s.regs.phase ≠ .done) : exec s.regs.phase.toInstr s = .next u := by
  have data (hi : inXfer s = true) : exec s.regs.phase.toInstr s = awaitToken s := by
    obtain ⟨hr, hp, hb, -⟩ := (inXfer_iff s).1 hi
    exact exec_no_byte hr hp hb
  cases h with
  | reset hr => exact exec_phase_reset hr
  | wait hr hi ho => simp_all
  | leader hr hp ho =>
    rw [exec_leader_phase hr hp, present]
    rw [if_pos ((outXfer_iff s).2 ⟨hr, by tauto, ho⟩)]
  | sample hr hp hb ho hc =>
    rw [exec_pending_byte hr hp hb, emitSample, romRead_in_cell _ _ hc, present]
    rw [if_pos ((outXfer_iff s).2 ⟨hr, by tauto, ho⟩)]
  | load hi he hn =>
    rw [data hi, awaitToken_byte hi he, if_neg]
    · rw [namingPhase_iff]
      rintro ⟨hp, hs⟩
      rcases hn with hn | hn <;> simp_all
    · rw [searching_iff]
      rintro ⟨⟨hp, hs⟩, hd'⟩
      rcases hn with hn | hn <;> simp_all
  | sync hi he hp hs hd' => rw [data hi, awaitToken_sync hi he ((searching_iff _).2 ⟨hp, hs⟩) hd']
  | name hi he hp hs hf =>
    rw [data hi, awaitToken_byte hi he, if_pos ((namingPhase_iff _).2 ⟨hp, hs⟩), if_neg (by simp [hf])]
    rw [searching_iff]
    rintro ⟨⟨-, hs'⟩, -⟩
    simp_all
  | eof hi he => rw [data hi, awaitToken_eof hi he]

/-- A step without a transfer waits, unless it would present a hole of the ROM. -/
theorem exec_phase_wait {s : State} (hr : s.pins.rst = false) (hi : inXfer s = false) (ho : outXfer s = false)
    (hc : s.regs.haveByte = true → s.regs.sampIdx.val < cellLen (tone s.regs)) :
    exec s.regs.phase.toInstr s = .next s := by
  have leader (hp : s.regs.phase = .leader1 ∨ s.regs.phase = .leader2) :
      exec s.regs.phase.toInstr s = .next s := by
    rw [exec_leader_phase hr hp, present, if_neg (by simp [ho])]
  have data (hp : s.regs.phase = .header ∨ s.regs.phase = .body) : exec s.regs.phase.toInstr s = .next s := by
    cases hb : s.regs.haveByte with
    | true =>
      rw [exec_pending_byte hr hp hb, emitSample, romRead_in_cell _ _ (hc hb), present, if_neg (by simp [ho])]
    | false => rw [exec_no_byte hr hp hb, awaitToken_wait hi]
  cases hp : s.regs.phase with
  | leader1 => rw [← hp]; exact leader (.inl hp)
  | header => rw [← hp]; exact data (.inl hp)
  | leader2 => rw [← hp]; exact leader (.inr hp)
  | body => rw [← hp]; exact data (.inr hp)
  | done => rw [← hp]; exact exec_done_phase hr hp

end Sys2Proof.Machine
end

