-- ==== Sys2Proof/Laws/Run.lean ====
section
/-! SUPPORT. Runs of several steps, and the driven run, one step at a time. -/

namespace Sys2Proof.Machine

@[simp] theorem run_zero (s : State) : run 0 s = .next s := rfl

/-- The first step of a run. -/
theorem run_step {n : Nat} {s t : State} (h : step s = .next t) : run (n + 1) s = run n t := by
  have h' : core.step s = .next t := h
  simp only [run, Host.Core.run, h']
  rfl

/-- A run in two parts. -/
theorem run_add {m : Nat} : ∀ {n : Nat} {s t : State}, run n s = .next t → run (n + m) s = run m t
  | 0, s, t, h => by
    cases h
    rw [Nat.zero_add]
  | n + 1, s, t, h => by
    cases hs : step s with
    | next u =>
      rw [run_step hs] at h
      rw [Nat.add_right_comm, run_step hs, run_add h]
    | fault f =>
      have h' : core.step s = .fault f := hs
      simp [run, Host.Core.run, h'] at h
    | refused r =>
      have h' : core.step s = .refused r := hs
      simp [run, Host.Core.run, h'] at h

@[simp] theorem drive_zero (env : Nat → Pins) : drive env 0 = { State.reset with pins := env 0 } := rfl

/-- The next cycle of a driven run. -/
theorem drive_succ {env : Nat → Pins} {n : Nat} {t : State} (h : step (drive env n) = .next t) :
    drive env (n + 1) = { t with pins := env (n + 1) } := by
  simp only [drive, h]

/-- The levels of a driven run are the environment's. -/
@[simp] theorem drive_pins (env : Nat → Pins) (n : Nat) : (drive env n).pins = env n := by
  cases n with
  | zero => rfl
  | succ n =>
    rw [drive]
    split <;> rfl

/-- What a pull and a push add to the two streams. -/
@[simp] theorem pushes_append (h h' : List Event) : pushes (h ++ h') = pushes h ++ pushes h' := by
  simp [pushes]

@[simp] theorem pulls_append (h h' : List Event) : pulls (h ++ h') = pulls h ++ pulls h' := by
  simp [pulls]

@[simp] theorem pushes_push (x : Sample) : pushes [.push x] = [x] := rfl

@[simp] theorem pushes_pull (t : Token) : pushes [.pull t] = [] := rfl

@[simp] theorem pulls_push (x : Sample) : pulls [.push x] = [] := rfl

@[simp] theorem pulls_pull (t : Token) : pulls [.pull t] = [t] := rfl

end Sys2Proof.Machine
end

