-- ==== Sys2Proof/Tests/Slice0.lean ====
section
/-! SUPPORT. The author's tests: expected values from 95_test_vectors.md and 30_encoding.md, and witnesses of the obligations' hypotheses. -/

open Sys2Proof Sys2Proof.Machine Sys2Proof.Claims

namespace Sys2Proof.Tests

/-! ## WellFormed smoke tests: one ill-formed term for each check -/

theorem test_illformed_emitSpace : Instr.emitSpace.wellFormedAt .byteRegister = false := by decide
theorem test_illformed_emitMark : Instr.emitMark.wellFormedAt .phaseRegister = false := by decide
theorem test_illformed_encodeByte : (Instr.encodeByte 0x3C).wellFormedAt (.tokenPort true) = false := by decide
theorem test_illformed_emitLeader : (Instr.emitLeader .second).wellFormedAt .phaseRegister = false := by decide
theorem test_illformed_phLeader1 : Instr.phLeader1.wellFormedAt .leaderSelect = false := by decide
theorem test_illformed_phHeader : Instr.phHeader.wellFormedAt .toneSelect = false := by decide
theorem test_illformed_phLeader2 : Instr.phLeader2.wellFormedAt .leaderSelect = false := by decide
theorem test_illformed_phBody : Instr.phBody.wellFormedAt .byteRegister = false := by decide
theorem test_illformed_phDone : Instr.phDone.wellFormedAt (.tokenPort false) = false := by decide
theorem test_illformed_tokByte_sync : (Instr.tokByte 0x3C).wellFormedAt (.tokenPort true) = false := by decide
theorem test_illformed_tokByte_site : (Instr.tokByte 0x41).wellFormedAt .byteRegister = false := by decide
theorem test_illformed_tokSync : Instr.tokSync.wellFormedAt (.tokenPort false) = false := by decide
theorem test_illformed_tokEof : Instr.tokEof.wellFormedAt .byteRegister = false := by decide

/-! ## Words written out bit by bit from 30_encoding.md R81 to R87 -/

theorem test_decode_emitSpace : decode .toneSelect 0b0 = .ok .emitSpace := by decide
theorem test_decode_emitMark : decode .toneSelect 0b1 = .ok .emitMark := by decide
theorem test_decode_encodeByte : decode .byteRegister 0b00001111 = .ok (.encodeByte 0x0F) := by decide
theorem test_decode_emitLeader1 : decode .leaderSelect 0b000 = .ok (.emitLeader .first) := by decide
theorem test_decode_emitLeader2 : decode .leaderSelect 0b010 = .ok (.emitLeader .second) := by decide
theorem test_decode_phLeader1 : decode .phaseRegister 0b000 = .ok .phLeader1 := by decide
theorem test_decode_phHeader : decode .phaseRegister 0b001 = .ok .phHeader := by decide
theorem test_decode_phLeader2 : decode .phaseRegister 0b010 = .ok .phLeader2 := by decide
theorem test_decode_phBody : decode .phaseRegister 0b011 = .ok .phBody := by decide
theorem test_decode_phDone : decode .phaseRegister 0b100 = .ok .phDone := by decide
/-- P3's token `041` (95_test_vectors.md section 5). -/
theorem test_decode_tokByte : decode (.tokenPort true) 0b001000001 = .ok (.tokByte 0x41) := by decide
/-- P3's token `03C`, first while it is searched for and then in the name record. -/
theorem test_decode_tokSync : decode (.tokenPort true) 0b000111100 = .ok .tokSync := by decide
theorem test_decode_ordinary_3C : decode (.tokenPort false) 0b000111100 = .ok (.tokByte 0x3C) := by decide
/-- "EOF with `in_data` = 0xA7" (V6). -/
theorem test_decode_tokEof : decode (.tokenPort true) 0b110100111 = .ok .tokEof := by decide
/-- The codes 5, 6 and 7 are reserved (R84). -/
theorem test_decode_reserved :
    decode .phaseRegister 0b101 = .error (.reservedPhase 0b101) ∧
    decode .phaseRegister 0b110 = .error (.reservedPhase 0b110) ∧
    decode .leaderSelect 0b111 = .error (.reservedPhase 0b111) := by decide
theorem test_decode_not_a_leader : decode .leaderSelect 0b011 = .error (.notALeader 0b011) := by decide
theorem test_decode_stray_bits : decode (.tokenPort true) 0b1000000000 = .error (.strayBits 512) := by decide

/-! ## One clock edge, against the tables V4 to V9 of 95_test_vectors.md -/

/-- The sink is ready and nothing is presented. -/
def sink : Pins := ⟨false, false, false, 0x00, true⟩

/-- A token is presented, and the sink is not ready. -/
def offers (eof : Bool) (data : Byte) : Pins := ⟨false, true, eof, data, false⟩

def under (p : Pins) (r : Regs) : State := { State.reset with regs := r, pins := p }

/-- V4's states: BODY, with the four registers of the byte path. -/
def cell (ph : Phase) (b : Byte) (bit : Fin 8) (samp : Fin 9) : Regs := ⟨ph, 0, true, b, bit, samp, true, 0, false⟩

/-- V5's states. -/
def lead (ph : Phase) (n : Fin 11025) (eof : Bool) : Regs := ⟨ph, n, false, 0x00, 0, 0, eof, 0, eof⟩

/-- V6's states, with `have_byte` = 0. -/
def asks (ph : Phase) (sync : Bool) (names : Fin 19) : Regs := ⟨ph, 0, false, 0x99, 0, 0, sync, names, false⟩

/-- The operation's edge gives these registers and makes these transfers. -/
def gives (i : Instr) (s : State) (r : Regs) (h : List Event) : Bool :=
  match exec i s with
  | .next t => t.regs == r && t.history == h
  | .fault _ => false
  | .refused _ => false

theorem test_emitSpace_inside : gives .emitSpace (under sink (cell .body 0x01 1 4)) (cell .body 0x01 1 5) [.push 0x80] := by
  decide
theorem test_emitSpace_end : gives .emitSpace (under sink (cell .body 0x01 1 8)) (cell .body 0x01 2 0) [.push 0x80] := by
  decide
theorem test_emitMark_end : gives .emitMark (under sink (cell .body 0x01 0 4)) (cell .body 0x01 1 0) [.push 0x80] := by
  decide
theorem test_emitMark_inside : gives .emitMark (under sink (cell .body 0xFF 7 3)) (cell .body 0xFF 7 4) [.push 0x00] := by
  decide
theorem test_encodeByte_end_of_byte :
    gives (.encodeByte 0x01) (under sink (cell .body 0x01 7 8))
      { cell .body 0x01 0 0 with haveByte := false } [.push 0x80] := by decide
theorem test_encodeByte_stalled :
    gives (.encodeByte 0x00) (under Pins.idle (cell .body 0x00 3 6)) (cell .body 0x00 3 6) [] := by decide
theorem test_emitLeader_stalled :
    gives (.emitLeader .first) (under Pins.idle (lead .leader1 0 false)) (lead .leader1 0 false) [] := by decide
theorem test_emitLeader_exhausted :
    gives (.emitLeader .second) (under sink (lead .leader2 11024 true)) (lead .done 0 true) [.push 0x40] := by decide
theorem test_phLeader1_last :
    gives .phLeader1 (under sink (lead .leader1 11024 false)) (lead .header 0 false) [.push 0x40] := by decide
theorem test_phLeader1_before_last :
    gives .phLeader1 (under sink (lead .leader1 11023 false)) (lead .leader1 11024 false) [.push 0x40] := by decide
theorem test_phLeader2_last :
    gives .phLeader2 (under sink (lead .leader2 11024 false)) (lead .body 0 false) [.push 0x40] := by decide
theorem test_phLeader2_first :
    gives .phLeader2 (under sink (lead .leader2 0 false)) (lead .leader2 1 false) [.push 0x40] := by decide
theorem test_phHeader_complete :
    gives .phHeader (under sink { cell .header 0x52 7 8 with nameCnt := 18 })
      { cell .leader2 0x52 0 0 with nameCnt := 18, haveByte := false } [.push 0x80] := by decide
theorem test_phHeader_name_missing :
    gives .phHeader (under sink { cell .header 0x52 7 8 with nameCnt := 17 })
      { cell .header 0x52 0 0 with nameCnt := 17, haveByte := false } [.push 0x80] := by decide
theorem test_phBody_eof :
    gives .phBody (under (offers true 0x00) (asks .body true 18)) { asks .done true 18 with eofSeen := true }
      [.pull .eof] := by decide
theorem test_phBody_ordinary_3C :
    gives .phBody (under (offers false 0x3C) (asks .body true 18))
      { asks .body true 18 with haveByte := true, byteReg := 0x3C } [.pull (.byte 0x3C)] := by decide
theorem test_phDone_for_ever :
    gives .phDone (under ⟨false, true, false, 0x3C, true⟩ (lead .done 0 true)) (lead .done 0 true) [] := by decide
theorem test_phDone_reset : gives .phDone (under ⟨true, true, true, 0, true⟩ (lead .done 0 true)) Regs.reset [] := by decide
theorem test_tokByte_eighteenth_name :
    gives (.tokByte 0x52) (under (offers false 0x52) (asks .header true 17))
      { asks .header true 18 with haveByte := true, byteReg := 0x52 } [.pull (.byte 0x52)] := by decide
theorem test_tokByte_preamble :
    gives (.tokByte 0x55) (under (offers false 0x55) (asks .header false 0))
      { asks .header false 0 with haveByte := true, byteReg := 0x55 } [.pull (.byte 0x55)] := by decide
theorem test_tokSync :
    gives .tokSync (under (offers false 0x3C) (asks .header false 0))
      { asks .header true 0 with haveByte := true, byteReg := 0x3C } [.pull (.byte 0x3C)] := by decide
theorem test_tokSync_reset :
    gives .tokSync (under ⟨true, true, false, 0x3C, false⟩ (asks .header false 0)) Regs.reset [] := by decide
theorem test_tokEof_no_sync :
    gives .tokEof (under (offers true 0xA7) (asks .header false 0)) { asks .leader2 false 0 with eofSeen := true }
      [.pull .eof] := by decide
theorem test_tokEof_short_name :
    gives .tokEof (under (offers true 0x00) (asks .header true 17)) { asks .leader2 true 17 with eofSeen := true }
      [.pull .eof] := by decide

/-- Four rows of V8: `in_ready`, `out_valid`, `out_data`, `done`. -/
theorem test_outputs :
    (let s := under sink (cell .header 0x3C 2 1)
     inReady s = false ∧ outValid s = true ∧ outData s = .ok 0xFF ∧ done s = false) ∧
    (let s := under sink (cell .body 0x00 7 5)
     inReady s = false ∧ outValid s = true ∧ outData s = .ok 0x25 ∧ done s = false) ∧
    (let s := under sink (asks .body true 18)
     inReady s = true ∧ outValid s = false ∧ done s = false) ∧
    (let s := under sink (lead .done 0 true)
     inReady s = false ∧ outValid s = false ∧ done s = true) := by decide

/-- "ask for a token, not for a sample": a step is an edge and then the next levels, here V6's TOK_SYNC placed by the host. -/
theorem test_placed_word_runs :
    (match step (State.reset.withFetchWord 16 0x003C) with
     | .next t => t.regs == ⟨.header, 0, true, 0x3C, 0, 0, true, 0, false⟩ && t.history == [.pull (.byte 0x3C)]
     | .fault _ => false
     | .refused _ => false) = true := by decide

/-- V3's cells of 0x01, and P4's second leader after a truncated name record. -/
theorem test_enc : enc 0x01 = markSamples ++ (List.replicate 7 spaceSamples).flatten := by decide
theorem test_header_lengths :
    headerLen [] = 0 ∧ headerLen [0x01] = 1 ∧ headerLen [0x55, 0x3C, 0xAA] = 3 ∧
    headerLen (List.replicate 20 0x3C) = 19 ∧ headerLen ([0x55, 0x55, 0x3C] ++ List.replicate 18 0x00 ++ [0x01, 0x3C, 0x80]) = 21 := by
  decide

/-! ## Witnesses: states that meet the obligations' hypotheses, at the ends of each range -/

/-- The hypotheses of `CellEdge` in a state. -/
abbrev CellMet (phases : List Phase) (bit : Bool) (table : List Sample) (c : State × Sample) : Prop :=
  c.1.pins.rst = false ∧ c.1.regs.phase ∈ phases ∧ c.1.regs.haveByte = true ∧
    c.1.regs.byteReg.getLsbD c.1.regs.bitIdx.val = bit ∧ table[c.1.regs.sampIdx.val]? = some c.2

/-- Mark cells: the first sample, the last but one, the end of cell 6, the end of the byte in each phase, and a wait. -/
theorem witness_mark_cell :
    (∀ c ∈ [(under sink (cell .header 0x01 0 0), 0x80), (under sink (cell .header 0xFF 7 3), 0x00),
        (under sink (cell .header 0x40 6 4), 0x80), (under sink { cell .header 0x80 7 4 with nameCnt := 18 }, 0x80),
        (under sink { cell .header 0x80 7 4 with nameCnt := 17 }, 0x80), (under Pins.idle (cell .header 0x01 0 1), 0xFF)],
      CellMet [.header] true markSamples c) ∧
    ∀ c ∈ [(under sink (cell .body 0x01 0 0), 0x80), (under sink (cell .body 0xFF 7 3), 0x00),
        (under sink (cell .body 0x40 6 4), 0x80), (under sink { cell .body 0x80 7 4 with nameCnt := 18 }, 0x80),
        (under Pins.idle (cell .body 0x01 0 1), 0xFF)],
      CellMet [.body] true markSamples c := by decide

/-- Space cells, at the same places. -/
theorem witness_space_cell :
    (∀ c ∈ [(under sink (cell .header 0x00 0 0), 0x80), (under sink (cell .header 0x00 7 7), 0x25),
        (under sink (cell .header 0x00 6 8), 0x80), (under sink { cell .header 0x00 7 8 with nameCnt := 18 }, 0x80),
        (under sink { cell .header 0x00 7 8 with nameCnt := 17 }, 0x80), (under Pins.idle (cell .header 0x00 0 1), 0xDA)],
      CellMet [.header] false spaceSamples c) ∧
    ∀ c ∈ [(under sink (cell .body 0x00 0 0), 0x80), (under sink (cell .body 0x00 7 7), 0x25),
        (under sink (cell .body 0x00 6 8), 0x80), (under sink { cell .body 0x00 7 8 with nameCnt := 18 }, 0x80),
        (under Pins.idle (cell .body 0x00 0 1), 0xDA)],
      CellMet [.body] false spaceSamples c := by decide

/-- A mark cell past its fifth sample, at both ends of what the sample counter can hold there. -/
theorem witness_mark_past_end :
    ∀ s ∈ [under sink (cell .header 0x01 0 5), under sink (cell .body 0xFF 7 8)],
      s.pins.rst = false ∧ (s.regs.phase = .header ∨ s.regs.phase = .body) ∧ s.regs.haveByte = true ∧
        s.regs.byteReg.getLsbD s.regs.bitIdx.val = true ∧ 5 ≤ s.regs.sampIdx.val := by decide

/-- Both leaders: the first sample, the last but one, the last in each case of `eof_seen`, and a wait. -/
theorem witness_leader_edge :
    (∀ s ∈ [under sink (lead .leader1 0 false), under sink (lead .leader1 11023 false),
        under sink (lead .leader1 11024 false), under Pins.idle (lead .leader1 5 false)],
      s.pins.rst = false ∧ s.regs.phase = .leader1) ∧
    ∀ s ∈ [under sink (lead .leader2 0 true), under sink (lead .leader2 11023 true),
        under sink (lead .leader2 11024 true), under sink (lead .leader2 11024 false),
        under Pins.idle (lead .leader2 5 false)],
      s.pins.rst = false ∧ s.regs.phase = .leader2 := by decide

/-- The six pulls, name bytes at both ends of the count, and the wait in both phases. -/
theorem witness_pulls :
    (let s := under (offers false 0x55) (asks .header false 0)
     TokenAt s .header false ∧ s.regs.syncFound = false ∧ s.pins.inData ≠ 0x3C) ∧
    (let s := under (offers false 0x3C) (asks .header false 0)
     TokenAt s .header false ∧ s.regs.syncFound = false ∧ s.pins.inData = 0x3C) ∧
    (∀ s ∈ [under (offers false 0x3C) (asks .header true 0), under (offers false 0x52) (asks .header true 17)],
      TokenAt s .header false ∧ s.regs.syncFound = true ∧ s.regs.nameCnt.val < 18) ∧
    TokenAt (under (offers false 0x3C) (asks .body true 18)) .body false ∧
    TokenAt (under (offers true 0xA7) (asks .header true 17)) .header true ∧
    TokenAt (under (offers true 0x00) (asks .body true 18)) .body true ∧
    (∀ ph ∈ [Phase.header, .body],
      let s := under sink (asks ph true 3)
      s.pins.rst = false ∧ s.regs.phase = ph ∧ s.regs.haveByte = false ∧ s.pins.inValid = false) := by
  unfold TokenAt
  decide

theorem witness_nineteenth_name_byte :
    let s := under (offers false 0x41) (asks .header true 18)
    TokenAt s .header false ∧ s.regs.syncFound = true ∧ s.regs.nameCnt.val = 18 := by
  unfold TokenAt
  decide

theorem witness_done : (under sink (lead .done 0 true)).regs.phase = .done ∧ Invariants (lead .done 0 true) ∧
    NoResetComing (under sink (lead .done 0 true)) := by
  unfold NoResetComing
  decide

/-- The sync byte in the search, in the name record and in the body. -/
theorem witness_sync_byte :
    ∀ r ∈ [asks .header false 0, asks .header true 17, asks .body true 18], Invariants r ∧
      (let s := under (offers false 0x3C) r
       inXfer s = true ∧ s.pins.inEof = false ∧ s.pins.inData = 0x3C) := by decide

theorem witness_wellFormed :
    (∀ i ∈ [Instr.tokByte 0x41, .tokSync, .tokEof], i.wellFormedAt (.tokenPort true) = true) ∧
    (Instr.tokByte 0x3C).wellFormedAt (.tokenPort false) = true ∧
    (Instr.encodeByte 0xFF).wellFormedAt .byteRegister = true ∧ Instr.emitMark.wellFormedAt .toneSelect = true ∧
    (Instr.emitLeader .second).wellFormedAt .leaderSelect = true ∧ Instr.phDone.wellFormedAt .phaseRegister = true := by
  decide

theorem witness_table_words :
    decodeTableWord 8 0 = some .emitSpace ∧ decodeTableWord 8 4 = some .phDone ∧
    decodeTableWord 8 0xFF = some (.encodeByte 0xFF) ∧ decodeTableWord 16 0x13C = some .tokEof := by decide

/-- Every operation is selected by some state and not by another. -/
theorem witness_selected :
    (∀ i ∈ [Instr.emitMark, .encodeByte 0xFF, .phBody], selected i (under sink (cell .body 0xFF 0 0)) = true) ∧
    selected .emitSpace (under sink (cell .body 0x00 0 0)) = true ∧
    (∀ i ∈ [Instr.emitLeader .second, .phLeader2], selected i (under sink (lead .leader2 0 false)) = true) ∧
    selected .phLeader1 State.reset = true ∧ selected .phHeader (under sink (asks .header true 1)) = true ∧
    selected .phDone (under sink (lead .done 0 true)) = true ∧
    selected (.tokByte 7) (under (offers false 7) (asks .body true 18)) = true ∧
    selected .tokSync (under (offers false 0x3C) (asks .header false 0)) = true ∧
    selected .tokEof (under (offers true 0) (asks .header false 0)) = true ∧
    State.reset.pins.rst = false ∧ selected .emitMark State.reset = false := by decide

theorem witness_under_reset : ∃ s t : State, s.pins.rst = true ∧ step s = .next t :=
  ⟨under ⟨true, true, false, 0x3C, true⟩ (cell .body 0xA5 4 3), _, rfl, rfl⟩

theorem witness_reset_twice :
    let s := under ⟨true, false, false, 0, true⟩ (cell .body 0xA5 4 3)
    let s' := under ⟨true, true, true, 0, false⟩ (lead .done 0 true)
    s.pins.rst = true ∧ s'.pins.rst = true ∧ s.coming = s'.coming := by decide

theorem witness_reset_state : State.reset.regs = State.reset.regs ∧ State.reset.pins.rst = false := by decide

theorem witness_untaken_sample :
    ∀ r ∈ [lead .leader1 0 false, lead .leader2 11024 true, cell .body 0x00 7 8],
      Invariants r ∧ (under Pins.idle r).pins.rst = false ∧ outValid (under Pins.idle r) = true ∧
        (under Pins.idle r).pins.outReady = false := by decide

/-- The hypotheses about the ends of cells: cells 0 and 6, and the end of the byte with the header full or not. -/
theorem witness_cell_ends :
    (∀ r ∈ [cell .header 0x01 0 4, cell .body 0x00 6 8],
      Invariants r ∧ r.haveByte = true ∧ outXfer (under sink r) = true ∧ lastSamp (tone r) r = true ∧ r.bitIdx.val ≠ 7) ∧
    ∀ n ∈ [(17 : Fin 19), 18],
      let r := { cell .header 0x52 7 8 with nameCnt := n }
      Invariants r ∧ r.haveByte = true ∧ outXfer (under sink r) = true ∧ lastSamp (tone r) r = true ∧ r.bitIdx.val = 7 :=
  ⟨by decide, by decide⟩

/-- Each phase transition happens: a state with the invariants whose step makes it. -/
theorem witness_transitions :
    ∀ c ∈ [(lead .leader1 11024 false, sink, Phase.header), (asks .header false 0, offers true 0, .leader2),
        ({ cell .header 0x52 7 8 with nameCnt := 18 }, sink, .leader2), (lead .leader2 11024 false, sink, .body),
        (lead .leader2 11024 true, sink, .done), (asks .body true 18, offers true 0, .done)],
      Invariants c.1 ∧ c.2.1.rst = false ∧
        (match step (under c.2.1 c.1) with
         | .next t => t.regs.phase == c.2.2
         | .fault _ => false
         | .refused _ => false) = true := by decide

/-- Each register changes somewhere: a step that changes it, at both kinds of its changes where it has two. -/
theorem witness_register_changes :
    ∀ c ∈ [(fun r : Regs => r.lcnt.val, lead .leader1 0 false, sink), (fun r => r.lcnt.val, lead .leader2 11024 true, sink),
        (fun r => r.haveByte.toNat, asks .body true 18, offers false 7), (fun r => r.haveByte.toNat, cell .body 0xFF 7 4, sink),
        (fun r => r.byteReg.toNat, asks .header false 0, offers false 0x3C),
        (fun r => r.bitIdx.val, cell .body 0x01 0 4, sink), (fun r => r.bitIdx.val, cell .body 0x00 7 8, sink),
        (fun r => r.bitIdx.val, { cell .header 0x00 7 3 with haveByte := false }, offers false 7),
        (fun r => r.sampIdx.val, cell .body 0x00 7 7, sink), (fun r => r.sampIdx.val, cell .body 0x00 0 8, sink),
        (fun r => r.sampIdx.val, { cell .header 0x00 7 3 with haveByte := false }, offers false 7),
        (fun r => r.syncFound.toNat, asks .header false 0, offers false 0x3C),
        (fun r => r.nameCnt.val, asks .header true 0, offers false 0x3C), (fun r => r.nameCnt.val, asks .header true 17, offers false 1),
        (fun r => r.eofSeen.toNat, asks .body true 18, offers true 0)],
      c.2.2.rst = false ∧
        (match step (under c.2.2 c.2.1) with
         | .next t => c.1 t.regs != c.1 c.2.1
         | .fault _ => false
         | .refused _ => false) = true := by decide

/-- Two cycles with the same registers and the same `rst` and nothing else in common. -/
theorem witness_same_registers :
    ∀ r ∈ [lead .leader2 7000 false, cell .header 0x3C 2 1],
      let s := under sink r
      let s' : State := { under (offers true 0xA7) r with history := [.pull .eof], coming := [sink], cycle := 9 }
      s'.regs = s.regs ∧ s'.pins.rst = s.pins.rst ∧ Invariants s.regs ∧ outValid s = true := by decide

/-- Every case of a step's transfers: a leader's sample, a cell's, a byte, EOF, and none at all. -/
theorem witness_port_transfers :
    (∀ r ∈ [lead .leader2 11024 true, cell .header 0x3C 7 8, cell .body 0xFF 0 3],
      Invariants r ∧ outXfer (under sink r) = true) ∧
    (∀ r ∈ [asks .header false 0, asks .header true 17, asks .body true 18],
      Invariants r ∧ inXfer (under (offers false 0x3C) r) = true ∧ inXfer (under (offers true 0xA7) r) = true) ∧
    ∀ r ∈ [cell .body 0xFF 0 3, asks .body true 18, lead .done 0 true],
      Invariants r ∧ inXfer (under Pins.idle r) = false ∧ outXfer (under Pins.idle r) = false :=
  ⟨by decide, by decide, by decide⟩

theorem witness_exhausted :
    ∀ r ∈ [lead .leader2 0 true, lead .leader2 11024 true, lead .done 0 true],
      Invariants r ∧ r.eofSeen = true ∧ NoResetComing (under sink r) := by
  unfold NoResetComing
  decide

/-- A state in which the sink is ready now and in the `n` cycles that follow. -/
def readyAt (n : Nat) (r : Regs) : State := { under sink r with coming := readyFor n }

theorem readyAt_ready (n : Nat) (r : Regs) : ReadyFor (n + 1) (readyAt n r) := by
  intro k hk
  cases k with
  | zero => exact ⟨sink, rfl, rfl, rfl⟩
  | succ k =>
    refine ⟨sink, ?_, rfl, rfl⟩
    show (List.replicate n sink)[k]? = some sink
    rw [List.getElem?_replicate, if_pos (by omega)]

theorem witness_mark_run :
    let s := readyAt 4 (cell .body 0x80 7 0)
    (s.regs.phase = .header ∨ s.regs.phase = .body) ∧ s.regs.haveByte = true ∧
      s.regs.byteReg.getLsbD s.regs.bitIdx.val = true ∧ s.regs.sampIdx = 0 ∧ ReadyFor 5 s :=
  ⟨by decide, by decide, by decide, by decide, readyAt_ready 4 _⟩

theorem witness_space_run :
    let s := readyAt 8 (cell .header 0x3C 6 0)
    (s.regs.phase = .header ∨ s.regs.phase = .body) ∧ s.regs.haveByte = true ∧
      s.regs.byteReg.getLsbD s.regs.bitIdx.val = false ∧ s.regs.sampIdx = 0 ∧ s.regs.bitIdx.val < 7 ∧ ReadyFor 9 s :=
  ⟨by decide, by decide, by decide, by decide, by decide, readyAt_ready 8 _⟩

theorem witness_byte_run :
    let s := readyAt 55 { cell .header 0x3C 0 0 with nameCnt := 18 }
    (s.regs.phase = .header ∨ s.regs.phase = .body) ∧ s.regs.haveByte = true ∧ s.regs.bitIdx = 0 ∧ s.regs.sampIdx = 0 ∧
      ReadyFor (enc s.regs.byteReg).length s :=
  ⟨by decide, by decide, by decide, by decide, readyAt_ready 55 _⟩

theorem witness_leader_run :
    ∀ r ∈ [lead .leader1 0 false, lead .leader2 0 true, lead .leader2 0 false],
      (r.phase = .leader1 ∨ r.phase = .leader2) ∧ r.lcnt.val = 0 ∧ ReadyFor 11025 (readyAt 11024 r) := by
  intro r hr
  refine ⟨?_, ?_, readyAt_ready 11024 r⟩
  · revert r
    decide
  · revert r
    decide

theorem witness_header_split : (0x3C : Byte) ∉ ([0x55, 0x00] : List Byte) := by decide

/-! ### An environment for every input and every schedule of the sink -/

/-- The next token of `x`, presented at once; the sink is ready as `ready` says. -/
def presents (x : List Byte) (ready : Bool) (h : List Event) : Pins :=
  match (inputTokens x)[(pulls h).length]? with
  | some (.byte b) => ⟨false, true, false, b, ready⟩
  | some .eof => ⟨false, true, true, 0x00, ready⟩
  | none => ⟨false, true, true, 0x00, ready⟩

/-- The machine with that environment around it. -/
def loop (x : List Byte) (ready : Nat → Bool) : Nat → State
  | 0 => { State.reset with pins := presents x (ready 0) [] }
  | n + 1 =>
    match step (loop x ready n) with
    | .next t => { t with pins := presents x (ready (n + 1)) t.history }
    | .fault _ => { loop x ready n with pins := presents x (ready (n + 1)) (loop x ready n).history }
    | .refused _ => { loop x ready n with pins := presents x (ready (n + 1)) (loop x ready n).history }

/-- The levels it puts on the ports. -/
def levels (x : List Byte) (ready : Nat → Bool) (n : Nat) : Pins := presents x (ready n) (loop x ready n).history

theorem presents_token (x : List Byte) (ready : Bool) (h : List Event) {t : Token}
    (ht : (inputTokens x)[(pulls h).length]? = some t) : portToken (presents x ready h) = t := by
  rw [presents, ht]
  cases t <;> simp [portToken_eq]

theorem presents_levels (x : List Byte) (ready : Bool) (h : List Event) :
    (presents x ready h).rst = false ∧ (presents x ready h).inValid = true ∧ (presents x ready h).outReady = ready := by
  unfold presents
  split <;> simp

/-- The driven run on those levels is the machine in its environment. -/
theorem drive_levels (x : List Byte) (ready : Nat → Bool) (n : Nat) : drive (levels x ready) n = loop x ready n := by
  induction n with
  | zero => rfl
  | succ n ih =>
    rw [drive, ih, levels, loop]
    cases step (loop x ready n) <;> rfl

/-- Every input has an environment that does its duties, whatever the sink's schedule: what the statements about runs
assume of it, but for the sink's fairness. -/
theorem witness_environment (x : List Byte) (ready : Nat → Bool) :
    NoReset (levels x ready) ∧ PresentsInOrder (levels x ready) x ∧ SourceFair (levels x ready) ∧
      ∀ n, (levels x ready n).inValid = true ∧ (levels x ready n).outReady = ready n := by
  refine ⟨fun n => (presents_levels ..).1, fun n t _ ht => ?_, fun n _ => ⟨n, Nat.le_refl n, (presents_levels ..).2.1⟩,
    fun n => (presents_levels ..).2⟩
  rw [drive_levels] at ht
  exact presents_token x (ready n) _ ht

/-- A sink that is always ready, and one that is ready in every fourth cycle (T3), are fair. -/
theorem witness_sinks (x : List Byte) :
    SinkFair (levels x fun _ => true) ∧ SinkFair (levels x fun n => n % 4 == 3) := by
  refine ⟨fun n => ⟨n, Nat.le_refl n, (presents_levels ..).2.2⟩, fun n => ⟨4 * n + 3, by omega, ?_⟩⟩
  rw [levels, (presents_levels ..).2.2, beq_iff_eq]
  omega

/-- A source that presents bytes for ever and never EOF. -/
theorem witness_endless_source :
    ∀ n, ((fun _ => ⟨false, true, false, 0x55, true⟩ : Nat → Pins) n).inValid = true →
      ((fun _ => ⟨false, true, false, 0x55, true⟩ : Nat → Pins) n).inEof = false := fun _ _ => rfl

/-- An empty input that is presented at once. -/
def emptyInput (_ : Nat) : Pins := ⟨false, true, true, 0x00, true⟩

theorem witness_empty_input :
    NoReset emptyInput ∧ ∀ n, (emptyInput n).outReady = true ∧ (emptyInput n).inValid = true ∧ (emptyInput n).inEof = true :=
  ⟨fun _ => rfl, fun _ => ⟨rfl, rfl, rfl⟩⟩

theorem witness_empty_input_in_order : PresentsInOrder emptyInput [] := by
  intro n t _ ht
  cases h : (pulls (drive emptyInput n).history).length with
  | zero =>
    rw [h] at ht
    cases ht
    rw [portToken_eq]
    rfl
  | succ k => simp [inputTokens, h] at ht

/-- One cycle of a leader of that run. -/
theorem emptyInput_leader {n : Nat}
    (hp : (drive emptyInput n).regs.phase = .leader1 ∨ (drive emptyInput n).regs.phase = .leader2) :
    (drive emptyInput (n + 1)).regs = advanceLeader (drive emptyInput n).regs := by
  have hr : (drive emptyInput n).pins.rst = false := by rw [drive_pins]; rfl
  have ho : (drive emptyInput n).pins.outReady = true := by rw [drive_pins]; rfl
  have hx : outXfer (drive emptyInput n) = true := (outXfer_iff _).2 ⟨hr, by tauto, ho⟩
  have hs : step (drive emptyInput n) = .next (tick ((drive emptyInput n).transfer (.push Config.silence)
      (advanceLeader (drive emptyInput n).regs))) := by
    rw [step_eq, exec_leader_phase hr hp, present, if_pos hx]
    rfl
  rw [drive_succ hs]
  rfl

/-- A whole leader of that run. -/
theorem emptyInput_leader_run {n : Nat}
    (hp : (drive emptyInput n).regs.phase = .leader1 ∨ (drive emptyInput n).regs.phase = .leader2)
    (hl : (drive emptyInput n).regs.lcnt = 0) :
    ∀ k, (h : k < 11025) → (drive emptyInput (n + k)).regs = { (drive emptyInput n).regs with lcnt := ⟨k, h⟩ }
  | 0, _ => by
    have hz : (⟨0, by decide⟩ : Fin 11025) = (drive emptyInput n).regs.lcnt := hl.symm
    rw [hz]
    rfl
  | k + 1, h => by
    have ih := emptyInput_leader_run hp hl k (by omega)
    have hlast : lastLead (drive emptyInput (n + k)).regs = false := by
      rw [ih]
      simp only [lastLead, Config.leaderLen, beq_eq_false_iff_ne, ne_eq]
      omega
    have hv := lcnt_succ_val hlast
    rw [← Nat.add_assoc, emptyInput_leader (by rw [ih]; exact hp), advanceLeader, if_neg (by simp [hlast])]
    rw [ih] at hv ⊢
    congr 1
    exact Fin.ext hv

/-- DONE is reached: the case of `TransfersDependOnTheBytesAlone` and `EveryRunPushesTheStartOfItsFrame` that needs it. -/
theorem witness_done_is_reached : ∃ n, (drive emptyInput n).regs.phase = .done := by
  have h1 := emptyInput_leader_run (n := 0) (.inl rfl) rfl 11024 (by decide)
  rw [Nat.zero_add] at h1
  have h2 : (drive emptyInput 11025).regs = lead .header 0 false := by
    rw [emptyInput_leader (by rw [h1]; exact .inl rfl), h1]
    decide
  have hr : (drive emptyInput 11025).pins.rst = false := by rw [drive_pins]; rfl
  have hx : inXfer (drive emptyInput 11025) = true :=
    (inXfer_iff _).2 ⟨hr, by rw [h2]; exact .inl rfl, by rw [h2]; rfl, by rw [drive_pins]; rfl⟩
  have hs : step (drive emptyInput 11025) = .next (tick ((drive emptyInput 11025).transfer (.pull .eof)
      (endInput (drive emptyInput 11025).regs))) := by
    rw [step_eq, exec_no_byte hr (by rw [h2]; exact .inl rfl) (by rw [h2]; rfl),
      awaitToken_eof hx (by rw [drive_pins]; rfl)]
    rfl
  have h3 : (drive emptyInput 11026).regs = ⟨.leader2, 0, false, 0x00, 0, 0, false, 0, true⟩ := by
    rw [drive_succ hs]
    show endInput (drive emptyInput 11025).regs = _
    rw [h2]
    decide
  have h4 := emptyInput_leader_run (n := 11026) (by rw [h3]; exact .inr rfl) (by rw [h3]) 11024 (by decide)
  refine ⟨11026 + 11024 + 1, ?_⟩
  rw [emptyInput_leader (by rw [h4, h3]; exact .inr rfl), h4, h3]
  decide

end Sys2Proof.Tests
end

section
/-! The two sample counters' updates, register by register and case by case. -/

namespace Sys2Proof.Machine

/-! ## The leader's update -/

theorem advanceLeader_inside {r : Regs} (hl : lastLead r = false) :
    advanceLeader r = { r with lcnt := r.lcnt + 1 } := by
  simp [advanceLeader, hl]

theorem advanceLeader_last {r : Regs} (hl : lastLead r = true) :
    advanceLeader r = { r with lcnt := 0, phase := afterLeader r } := by
  simp [advanceLeader, hl]

theorem lastLead_iff (r : Regs) : lastLead r = true ↔ r.lcnt.val = 11024 := by
  simp [lastLead]

section
variable (r : Regs)
@[simp] theorem advanceLeader_haveByte : (advanceLeader r).haveByte = r.haveByte := by unfold advanceLeader; split <;> rfl
@[simp] theorem advanceLeader_byteReg : (advanceLeader r).byteReg = r.byteReg := by unfold advanceLeader; split <;> rfl
@[simp] theorem advanceLeader_bitIdx : (advanceLeader r).bitIdx = r.bitIdx := by unfold advanceLeader; split <;> rfl
@[simp] theorem advanceLeader_sampIdx : (advanceLeader r).sampIdx = r.sampIdx := by unfold advanceLeader; split <;> rfl
@[simp] theorem advanceLeader_syncFound : (advanceLeader r).syncFound = r.syncFound := by unfold advanceLeader; split <;> rfl
@[simp] theorem advanceLeader_nameCnt : (advanceLeader r).nameCnt = r.nameCnt := by unfold advanceLeader; split <;> rfl
@[simp] theorem advanceLeader_eofSeen : (advanceLeader r).eofSeen = r.eofSeen := by unfold advanceLeader; split <;> rfl
end

/-- `lcnt` counts to 11024 and wraps (42_leader_generator.md R131). -/
theorem advanceLeader_lcnt_val (r : Regs) :
    (advanceLeader r).lcnt.val = if r.lcnt.val = 11024 then 0 else r.lcnt.val + 1 := by
  cases hl : lastLead r with
  | true => rw [advanceLeader_last hl, if_pos ((lastLead_iff r).1 hl)]; rfl
  | false =>
    rw [advanceLeader_inside hl, if_neg (by rw [← lastLead_iff, hl]; decide)]
    exact lcnt_succ_val hl

/-- The phase stays until the last transfer of the leader. -/
theorem advanceLeader_phase_change {r : Regs} (h : (advanceLeader r).phase ≠ r.phase) : r.lcnt.val = 11024 := by
  cases hl : lastLead r with
  | true => exact (lastLead_iff r).1 hl
  | false => exact absurd (congrArg Regs.phase (advanceLeader_inside hl)) h

/-! ## The cell's update -/

theorem cellLen_pos (t : Tone) : 0 < cellLen t := by cases t <;> decide

theorem lastBit_iff (r : Regs) : lastBit r = true ↔ r.bitIdx.val = 7 := by
  simp [lastBit]

theorem advanceCell_inside {t : Tone} {r : Regs} (hs : lastSamp t r = false) :
    advanceCell t r = { r with sampIdx := r.sampIdx + 1 } := by
  simp [advanceCell, hs]

theorem advanceCell_next_bit {t : Tone} {r : Regs} (hs : lastSamp t r = true) (hb : lastBit r = false) :
    advanceCell t r = { r with sampIdx := 0, bitIdx := r.bitIdx + 1 } := by
  simp [advanceCell, endCell, hs, hb]

theorem advanceCell_end_byte {t : Tone} {r : Regs} (hs : lastSamp t r = true) (hb : lastBit r = true) :
    advanceCell t r = endByte r := by
  simp [advanceCell, endCell, hs, hb]

@[simp] theorem hdrFull_endByte (r : Regs) : hdrFull (endByte r) = hdrFull r := rfl

section
variable (t : Tone) (r : Regs)
@[simp] theorem advanceCell_lcnt : (advanceCell t r).lcnt = r.lcnt := by
  unfold advanceCell endCell; split_ifs <;> rfl
@[simp] theorem advanceCell_byteReg : (advanceCell t r).byteReg = r.byteReg := by
  unfold advanceCell endCell; split_ifs <;> rfl
@[simp] theorem advanceCell_syncFound : (advanceCell t r).syncFound = r.syncFound := by
  unfold advanceCell endCell; split_ifs <;> rfl
@[simp] theorem advanceCell_nameCnt : (advanceCell t r).nameCnt = r.nameCnt := by
  unfold advanceCell endCell; split_ifs <;> rfl
@[simp] theorem advanceCell_eofSeen : (advanceCell t r).eofSeen = r.eofSeen := by
  unfold advanceCell endCell; split_ifs <;> rfl
end

/-- Only the last sample of cell 7 changes `phase` or `have_byte` (41_bit_encoder.md R122). -/
theorem advanceCell_before_end {t : Tone} {r : Regs} (h : ¬(lastSamp t r = true ∧ lastBit r = true)) :
    (advanceCell t r).phase = r.phase ∧ (advanceCell t r).haveByte = r.haveByte := by
  cases hs : lastSamp t r with
  | false => rw [advanceCell_inside hs]; exact ⟨rfl, rfl⟩
  | true =>
    have hb : lastBit r = false := by simpa [hs] using h
    rw [advanceCell_next_bit hs hb]
    exact ⟨rfl, rfl⟩

/-- The phase changes in HEADER only (43_frame_sequencer.md R146). -/
theorem advanceCell_phase_change {t : Tone} {r : Regs} (h : (advanceCell t r).phase ≠ r.phase) :
    r.phase = .header ∧ r.bitIdx.val = 7 ∧ lastSamp t r = true := by
  obtain ⟨hs, hb⟩ := not_not.1 fun hn => h (advanceCell_before_end hn).1
  refine ⟨?_, (lastBit_iff r).1 hb, hs⟩
  by_contra hp
  simp [advanceCell_end_byte hs hb, hp] at h

theorem advanceCell_haveByte_change {t : Tone} {r : Regs} (h : (advanceCell t r).haveByte ≠ r.haveByte) :
    (advanceCell t r).haveByte = false ∧ r.bitIdx.val = 7 ∧ lastSamp t r = true := by
  obtain ⟨hs, hb⟩ := not_not.1 fun hn => h (advanceCell_before_end hn).2
  exact ⟨by rw [advanceCell_end_byte hs hb]; rfl, (lastBit_iff r).1 hb, hs⟩

theorem advanceCell_bitIdx_change {t : Tone} {r : Regs} (h : (advanceCell t r).bitIdx ≠ r.bitIdx) :
    lastSamp t r = true := by
  cases hs : lastSamp t r with
  | true => rfl
  | false => exact absurd (congrArg Regs.bitIdx (advanceCell_inside hs)) h

/-- `bit_idx` counts the cells' ends (41_bit_encoder.md R121, R122). -/
theorem advanceCell_bitIdx_val (t : Tone) (r : Regs) :
    (advanceCell t r).bitIdx.val =
      if lastSamp t r then (if r.bitIdx.val = 7 then 0 else r.bitIdx.val + 1) else r.bitIdx.val := by
  cases hs : lastSamp t r with
  | false => rw [advanceCell_inside hs]; rfl
  | true =>
    rw [if_pos rfl]
    cases hb : lastBit r with
    | true => rw [advanceCell_end_byte hs hb, if_pos ((lastBit_iff r).1 hb)]; rfl
    | false =>
      rw [advanceCell_next_bit hs hb, if_neg (by rw [← lastBit_iff, hb]; decide)]
      exact bitIdx_succ_val hb

/-- `samp_idx` counts the samples of a cell (40_tone_synthesizer.md R112). -/
theorem advanceCell_sampIdx_val {t : Tone} {r : Regs} (hc : r.sampIdx.val < cellLen t) :
    (advanceCell t r).sampIdx.val = if lastSamp t r then 0 else r.sampIdx.val + 1 := by
  cases hs : lastSamp t r with
  | false => rw [advanceCell_inside hs]; exact (sampIdx_succ_in_cell hc hs).1
  | true =>
    rw [if_pos rfl]
    cases hb : lastBit r with
    | true => rw [advanceCell_end_byte hs hb]; rfl
    | false => rw [advanceCell_next_bit hs hb]; rfl

end Sys2Proof.Machine
end

section
/-! The invariants of 10_state.md R39: kept by each update of the registers, and so by every clock edge. -/

namespace Sys2Proof.Machine

/-! ## The invariants with a byte pending, and with none -/

/-- In a data phase EOF has not been pulled (R39 I11). -/
theorem eofSeen_of_data_phase {r : Regs} (h : InvExhausted r) (hp : r.phase = .header ∨ r.phase = .body) :
    r.eofSeen = false := by
  cases he : r.eofSeen with
  | false => rfl
  | true => rcases hp with hp | hp <;> simpa [hp] using h he

/-- What the invariants say in every data phase, with a byte pending or not (R39 I2, I6, I11). -/
theorem invariants_in_data_phase {r : Regs} (h : Invariants r) (hp : r.phase = .header ∨ r.phase = .body) :
    r.lcnt.val = 0 ∧ r.eofSeen = false ∧ InvNamesAfterSync r := by
  obtain ⟨hLeaders, -, -, -, hNames, -, -, -, -, hExhausted, -⟩ := h
  have hl : inLeader r = false := by rcases hp with hp | hp <;> simp [inLeader, hp]
  exact ⟨hLeaders hl, eofSeen_of_data_phase hExhausted hp, hNames⟩

/-- In a leader and in DONE no byte is pending (R39 I3). -/
theorem haveByte_of_not_data_phase {r : Regs} (h : Invariants r) (hp : inDataPhase r = false) :
    r.haveByte = false := by
  obtain ⟨-, hPending, -⟩ := h
  cases hb : r.haveByte with
  | false => rfl
  | true => simpa [hp] using hPending hb

/-- What the invariants say while a byte is pending: the phase is a data phase, and the sample lies in the cell. -/
theorem invariants_pending_iff {r : Regs} (hb : r.haveByte = true) :
    Invariants r ↔ (r.phase = .header ∨ r.phase = .body) ∧ r.lcnt.val = 0 ∧ r.sampIdx.val < cellLen (tone r) ∧
      InvNamesAfterSync r ∧ r.eofSeen = false ∧
      (r.phase = .header → r.syncFound = false → r.byteReg ≠ Config.syncByte) := by
  constructor
  · intro h
    have ⟨_, hPending, _, hCell, _, _, _, _, _, _, hPreamble⟩ := h
    have hp := (inDataPhase_iff r).1 (hPending hb)
    obtain ⟨hl, he, hNames⟩ := invariants_in_data_phase h hp
    exact ⟨hp, hl, hCell hb, hNames, he, fun hh => hPreamble hh hb⟩
  · rintro ⟨hp, hl, hCell, hNames, he, hPreamble⟩
    have hLeader1 : InvLeader1 r := fun h1 => by simp [h1] at hp
    have hDone : InvDone r := fun hd => by simp [hd] at hp
    exact ⟨fun _ => hl, fun _ => (inDataPhase_iff r).2 hp, by simp [InvSelectorsAtRest, hb], fun _ => hCell, hNames,
      hLeader1, by simp [InvHeaderAsks, hb], fun _ => he, hDone, by simp [InvExhausted, he], fun hh _ => hPreamble hh⟩

/-- What the invariants say while no byte is pending: the selectors rest, and a header is not full. -/
theorem invariants_no_byte_iff {r : Regs} (hb : r.haveByte = false) :
    Invariants r ↔ (r.bitIdx.val = 0 ∧ r.sampIdx.val = 0) ∧ InvLeaderCount r ∧ InvNamesAfterSync r ∧ InvLeader1 r ∧
      (r.phase = .header → hdrFull r = false) ∧ (r.phase = .done → r.eofSeen = true) ∧ InvExhausted r := by
  constructor
  · rintro ⟨hLeaders, -, hRest, -, hNames, hLeader1, hAsks, -, hDone, hExhausted, -⟩
    exact ⟨hRest hb, hLeaders, hNames, hLeader1, fun hp => (hAsks hp hb).2, fun hp => (hDone hp).1, hExhausted⟩
  · rintro ⟨hRest, hLeaders, hNames, hLeader1, hFull, hDone, hExhausted⟩
    exact ⟨hLeaders, by simp [InvPendingByte, hb], fun _ => hRest, by simp [InvSampleInCell, hb], hNames, hLeader1,
      fun hp _ => ⟨eofSeen_of_data_phase hExhausted (.inl hp), hFull hp⟩,
      fun hp => eofSeen_of_data_phase hExhausted (.inr hp), fun hp => ⟨hDone hp, hb⟩, hExhausted,
      by simp [InvPreambleByte, hb]⟩

/-! ## Every update of the registers keeps the invariants -/

theorem reset_invariants : Invariants Regs.reset := by decide

theorem advanceLeader_invariants {r : Regs} (h : Invariants r) (hp : r.phase = .leader1 ∨ r.phase = .leader2) :
    Invariants (advanceLeader r) := by
  have hb : r.haveByte = false := haveByte_of_not_data_phase h (by rcases hp with hp | hp <;> simp [inDataPhase, hp])
  obtain ⟨hRest, -, hNames, hLeader1, hFull, hDone, hExhausted⟩ := (invariants_no_byte_iff hb).1 h
  cases hl : lastLead r with
  | false =>
    rw [advanceLeader_inside hl]
    exact Iff.mpr (invariants_no_byte_iff hb) ⟨hRest, fun hn => absurd hp (not_or.2 ((inLeader_eq_false_iff r).1 hn)), hNames, hLeader1, hFull, hDone, hExhausted⟩
  | true =>
    rw [advanceLeader_last hl]
    refine Iff.mpr (invariants_no_byte_iff hb) ⟨hRest, fun _ => rfl, hNames, ?_⟩
    rcases hp with hp | hp
    · obtain ⟨hs, -, he⟩ := hLeader1 hp
      simp [InvLeader1, InvExhausted, afterLeader, hdrFull, hp, hs, he]
    · cases he : r.eofSeen <;> simp [InvLeader1, InvExhausted, afterLeader, hp, he]

theorem endByte_invariants {r : Regs} (h : Invariants r) (hb : r.haveByte = true) : Invariants (endByte r) := by
  obtain ⟨hp, hl, -, hNames, he, -⟩ := (invariants_pending_iff hb).1 h
  refine Iff.mpr (invariants_no_byte_iff rfl) ⟨⟨rfl, rfl⟩, fun _ => hl, hNames, ?_⟩
  rcases hp with hp | hp
  · cases hf : hdrFull r <;> simp [InvLeader1, InvExhausted, hp, hf, he]
  · simp [InvLeader1, InvExhausted, hp, he]

theorem advanceCell_invariants {r : Regs} (h : Invariants r) (hb : r.haveByte = true) :
    Invariants (advanceCell (tone r) r) := by
  obtain ⟨hp, hl, hCell, hNames, he, hPreamble⟩ := (invariants_pending_iff hb).1 h
  cases hs : lastSamp (tone r) r with
  | false =>
    rw [advanceCell_inside hs]
    obtain ⟨hv, hin⟩ := sampIdx_succ_in_cell hCell hs
    exact Iff.mpr (invariants_pending_iff hb) ⟨hp, hl, hv.trans_lt hin, hNames, he, hPreamble⟩
  | true =>
    cases hlast : lastBit r with
    | false =>
      rw [advanceCell_next_bit hs hlast]
      exact Iff.mpr (invariants_pending_iff hb) ⟨hp, hl, cellLen_pos _, hNames, he, hPreamble⟩
    | true =>
      rw [advanceCell_end_byte hs hlast]
      exact endByte_invariants h hb

theorem loadByte_invariants {r : Regs} {b : Byte} (h : Invariants r) (hp : r.phase = .header ∨ r.phase = .body)
    (hn : r.phase = .header → r.syncFound = false → b ≠ Config.syncByte) : Invariants (loadByte b r) := by
  obtain ⟨hl, he, hNames⟩ := invariants_in_data_phase h hp
  exact Iff.mpr (invariants_pending_iff rfl) ⟨hp, hl, cellLen_pos _, hNames, he, hn⟩

theorem syncByte_invariants {r : Regs} {b : Byte} (h : Invariants r) (hp : r.phase = .header ∨ r.phase = .body) :
    Invariants (setSyncFound (loadByte b r)) := by
  obtain ⟨hl, he, -⟩ := invariants_in_data_phase h hp
  exact Iff.mpr (invariants_pending_iff rfl) ⟨hp, hl, cellLen_pos _, by simp [InvNamesAfterSync], he, by simp⟩

theorem nameByte_invariants {r : Regs} {b : Byte} (h : Invariants r) (hp : r.phase = .header ∨ r.phase = .body)
    (hs : r.syncFound = true) : Invariants (countName (loadByte b r)) := by
  obtain ⟨hl, he, -⟩ := invariants_in_data_phase h hp
  exact Iff.mpr (invariants_pending_iff rfl) ⟨hp, hl, cellLen_pos _, by simp [InvNamesAfterSync, hs], he, by simp [hs]⟩

theorem endInput_invariants {r : Regs} (h : Invariants r) (hp : r.phase = .header ∨ r.phase = .body)
    (hb : r.haveByte = false) : Invariants (endInput r) := by
  obtain ⟨hl, he, hNames⟩ := invariants_in_data_phase h hp
  obtain ⟨hRest, -⟩ := (invariants_no_byte_iff hb).1 h
  refine Iff.mpr (invariants_no_byte_iff hb) ⟨hRest, fun _ => hl, hNames, ?_⟩
  rcases hp with hp | hp <;> simp [InvLeader1, InvExhausted, hp]

/-! ## Every clock edge keeps the invariants -/

theorem Edge.invariants {s u : State} (he : Edge s u) (h : Invariants s.regs) : Invariants u.regs := by
  cases he with
  | reset => exact reset_invariants
  | wait => exact h
  | leader _ hp => exact advanceLeader_invariants h hp
  | sample _ _ hb => exact advanceCell_invariants h hb
  | load hx _ hn =>
    obtain ⟨-, hp, -⟩ := (inXfer_iff s).1 hx
    refine loadByte_invariants h hp fun hh hs => ?_
    rcases hn with hn | ⟨-, -, hd⟩
    · simp [hh] at hn
    · exact hd
  | sync _ _ hp => exact syncByte_invariants h (.inl hp)
  | name _ _ hp hs => exact nameByte_invariants h (.inl hp) hs
  | eof hx =>
    obtain ⟨-, hp, hb, -⟩ := (inXfer_iff s).1 hx
    exact endInput_invariants h hp hb

/-- Settles O33: by the cases of a clock edge, each of which is an update of the registers that keeps the invariants. -/
theorem everyStepKeepsTheInvariants : Obligations.EveryStepKeepsTheInvariants := by
  intro s t h hstep
  obtain ⟨u, he, rfl⟩ := step_edge hstep
  exact he.invariants h

/-- Settles O34, by evaluating the invariants on the reset registers. -/
theorem resetStateMeetsTheInvariants : Obligations.ResetStateMeetsTheInvariants :=
  reset_invariants

/-! ## Every reachable state -/

/-- A run that starts in the reset state stays inside the invariants. -/
theorem drive_invariants (env : Nat → Pins) (n : Nat) : Invariants (drive env n).regs := by
  induction n with
  | zero => exact reset_invariants
  | succ n ih =>
    rw [drive]
    split
    next t ht => exact everyStepKeepsTheInvariants _ t ih ht
    · exact ih
    · exact ih

/-- R39 I12: each phase drives one of the three outputs, and a data phase drives the one that `have_byte` says. -/
theorem exactly_one_output {s : State} (h : Invariants s.regs) (hr : s.pins.rst = false) :
    (inReady s).toNat + (outValid s).toNat + (done s).toNat = 1 := by
  cases hb : s.regs.haveByte with
  | true =>
    obtain ⟨hp, -⟩ := (invariants_pending_iff hb).1 h
    rcases hp with hp | hp <;> simp only [inReady, outValid, done, inDataPhase, inLeader, hr, hp, hb] <;> rfl
  | false => cases hp : s.regs.phase <;> simp only [inReady, outValid, done, inDataPhase, inLeader, hr, hp, hb] <;> rfl

/-- Settles O35, by induction on the cycle: the reset state has the invariants and every step keeps them. -/
theorem reachableStatesMeetTheInvariants : Obligations.ReachableStatesMeetTheInvariants :=
  fun env n => ⟨drive_invariants env n, exactly_one_output (drive_invariants env n)⟩

end Sys2Proof.Machine
end

section
/-! When a step without reset may change each of the nine registers (10_state.md R21 to R29). -/

namespace Sys2Proof.Machine

theorem outXfer_of_leader {s : State} (hr : s.pins.rst = false) (hp : s.regs.phase = .leader1 ∨ s.regs.phase = .leader2)
    (ho : s.pins.outReady = true) : outXfer s = true :=
  (outXfer_iff s).2 ⟨hr, by tauto, ho⟩

theorem outXfer_of_pending {s : State} (hr : s.pins.rst = false) (hb : s.regs.haveByte = true)
    (ho : s.pins.outReady = true) : outXfer s = true :=
  (outXfer_iff s).2 ⟨hr, .inr (.inr hb), ho⟩

/-- Settles O38, case by case of the clock edge: each case leaves most registers alone, and changes the others as its
update of the registers says. -/
theorem eachRegisterChangesOnlyByItsRules : Obligations.EachRegisterChangesOnlyByItsRules := by
  intro s t hstep hr
  obtain ⟨u, he, rfl⟩ := step_edge hstep
  simp only [tick_regs]
  cases he with
  | reset hr' => simp [hr] at hr'
  | wait => simp
  | leader _ hp ho =>
    have hx := outXfer_of_leader hr hp ho
    have hl := (inLeader_iff s.regs).2 hp
    refine ⟨fun h => .inl ⟨hx, hl, advanceLeader_phase_change h⟩, fun _ => ⟨hx, hl, advanceLeader_lcnt_val _⟩, ?_⟩
    simp
  | sample _ hp hb ho hc =>
    have hx := outXfer_of_pending hr hb ho
    refine ⟨fun h => ?_, by simp, fun h => ?_, by simp, fun h => ?_, fun _ => ?_, by simp⟩
    · obtain ⟨hheader, hlast, hs⟩ := advanceCell_phase_change h
      exact .inr (.inl ⟨hx, hheader, hb, hlast, hs⟩)
    · obtain ⟨hclear, hlast, hs⟩ := advanceCell_haveByte_change h
      exact .inr ⟨hclear, hx, hlast, hs⟩
    · have hs := advanceCell_bitIdx_change h
      have hv := advanceCell_bitIdx_val (tone s.regs) s.regs
      rw [if_pos hs] at hv
      exact .inr ⟨hx, hb, hs, hv⟩
    · exact .inr ⟨hx, hb, advanceCell_sampIdx_val hc⟩
  | load hx heof => simp [hx, heof]
  | sync hx heof hp _ hd => simp [hx, heof, hp, hd]
  | name hx heof hp hs hf =>
    have hcount : (s.regs.nameCnt + 1).val = s.regs.nameCnt.val + 1 :=
      nameCnt_succ_val fun h18 => by simp [(hdrFull_iff s.regs).2 ⟨hs, h18⟩] at hf
    simp [hx, heof, hp, hs, hcount]
  | eof hx heof => simp [hx, heof]

end Sys2Proof.Machine
end

section
/-! What the ports show and where a step goes on: the reset state, waiting, progress, and the exhausted block. -/

namespace Sys2Proof.Machine

/-! ## The reset state and a nineteenth name byte -/

/-- Settles O24: the reset registers are in the first leader with no byte pending, which decides all four outputs. -/
theorem resetStateIsTheTable : Obligations.ResetStateIsTheTable := by
  refine ⟨rfl, fun s hs hr => ?_⟩
  have hp : s.regs.phase = .leader1 := by rw [hs]; rfl
  have hl : inLeader s.regs = true := (inLeader_iff _).2 (.inl hp)
  exact ⟨by simp [inReady, inDataPhase, hp], by simp [outValid, hr, hl], outData_in_leader hr hl, by simp [done, hp]⟩

/-- A byte on the port is TOK_BYTE's, unless it is the sync byte in the search (30_encoding.md R91). -/
theorem portOp_eq_byte {s : State} (he : s.pins.inEof = false)
    (hs : ¬(searching s.regs = true ∧ s.pins.inData = Config.syncByte)) : portOp s = .byte s.pins.inData := by
  rw [portOp_eq, he, if_neg Bool.false_ne_true, if_neg]
  rwa [Bool.and_eq_true, beq_iff_eq]

/-- Where TOK_BYTE is the token's operation it is the one that `awaitToken` runs. -/
theorem awaitToken_eq_execTokByte {s : State} {d : Byte} (hx : inXfer s = true) (hop : portOp s = .byte d) :
    awaitToken s = execTokByte d s := by
  simp [awaitToken, hx, hop]

/-- Settles O21: TOK_BYTE is what the port's byte is to a name record, and the full header refuses it. -/
theorem nineteenthNameByteIsRefused : Obligations.NineteenthNameByteIsRefused := by
  rintro s ⟨hr, hp, hb, hv, he⟩ hs hn
  have hx : inXfer s = true := (inXfer_iff s).2 ⟨hr, .inl hp, hb, hv⟩
  have hsearch : ¬(searching s.regs = true ∧ s.pins.inData = Config.syncByte) := by simp [searching, hs]
  calc exec (.tokByte s.pins.inData) s
      = awaitToken s := (awaitToken_eq_execTokByte hx (portOp_eq_byte he hsearch)).symm
    _ = .refused .nameCountPastEnd := by
      rw [awaitToken_byte hx he hsearch, if_pos ((namingPhase_iff _).2 ⟨hp, hs⟩), if_pos ((hdrFull_iff _).2 ⟨hs, hn⟩)]

/-! ## The outputs are functions of the registers and `rst` -/

theorem outValid_congr {s s' : State} (hregs : s'.regs = s.regs) (hrst : s'.pins.rst = s.pins.rst) :
    outValid s' = outValid s := by
  simp only [outValid, hregs, hrst]

/-- A sample is presented in a leader or with a byte pending, so under the invariants in one of R35's two cases. -/
theorem presenting_phase {s : State} (h : Invariants s.regs) (hv : outValid s = true) :
    inLeader s.regs = true ∨ inDataPhase s.regs = true := by
  obtain ⟨-, hPending, -⟩ := h
  have hcase : inLeader s.regs = true ∨ s.regs.haveByte = true := by
    simp only [outValid, Bool.and_eq_true, Bool.or_eq_true] at hv
    exact hv.2
  exact hcase.imp_right hPending

/-- The presented sample does not depend on the inputs or on the cycle. -/
theorem outData_congr {s s' : State} (hregs : s'.regs = s.regs) (hrst : s'.pins.rst = s.pins.rst)
    (h : Invariants s.regs) (hv : outValid s = true) : outData s' = outData s := by
  have hv' : outValid s' = true := (outValid_congr hregs hrst).trans hv
  cases hl : inLeader s.regs with
  | true => simp only [outData, hv, hv', hregs, hl, Bool.and_self, if_true]
  | false =>
    have hd : inDataPhase s.regs = true := (presenting_phase h hv).resolve_left (by simp [hl])
    simp [outData, hv, hv', hregs, hl, hd]

/-! ## Waiting and progress -/

/-- A block that presents a sample asks for no token. -/
theorem inXfer_of_outValid {s : State} (hv : outValid s = true) : inXfer s = false := by
  cases hx : inXfer s with
  | false => rfl
  | true =>
    obtain ⟨-, hp, hb, -⟩ := (inXfer_iff s).1 hx
    rcases hp with hp | hp <;> simp [outValid, inLeader, hp, hb] at hv

/-- Under the invariants a cycle without a transfer is a wait. -/
theorem step_wait {s : State} (h : Invariants s.regs) (hr : s.pins.rst = false) (hi : inXfer s = false)
    (ho : outXfer s = false) : step s = .next (tick s) := by
  obtain ⟨-, -, -, hCell, -⟩ := h
  rw [step_eq, exec_phase_wait hr hi ho hCell]
  rfl

/-- Settles O28: without the sink there is no transfer, so the step waits, and what is presented is a function of the
registers. -/
theorem untakenSampleStaysPresented : Obligations.UntakenSampleStaysPresented := by
  intro s h hr hv hready
  have hstep := step_wait h hr (inXfer_of_outValid hv) (by simp [outXfer, hready])
  refine ⟨tick s, hstep, rfl, rfl, fun hr' => ?_⟩
  have hrst : (tick s).pins.rst = s.pins.rst := hr'.trans hr.symm
  exact ⟨(outValid_congr (tick_regs s) hrst).trans hv, outData_congr (tick_regs s) hrst h hv⟩

/-- A transfer of a case of `Edge` is the step's. -/
theorem step_of_transfer {s u : State} (he : Edge s u) (hx : inXfer s = true ∨ outXfer s = true)
    (hd : s.regs.phase ≠ .done) : step s = .next (tick u) := by
  rw [step_eq, exec_phase_of_transfer he hx hd]
  rfl

/-- Under the invariants a presented token is taken: a nineteenth name byte is not asked for (R39 I8). -/
theorem exists_edge_of_inXfer {s : State} (h : Invariants s.regs) (hx : inXfer s = true) : ∃ u, Edge s u := by
  obtain ⟨-, hp, hb, -⟩ := (inXfer_iff s).1 hx
  cases he : s.pins.inEof with
  | true => exact ⟨_, .eof hx he⟩
  | false =>
    rcases hp with hp | hp
    · cases hs : s.regs.syncFound with
      | true =>
        obtain ⟨-, -, -, -, hFull, -⟩ := (invariants_no_byte_iff hb).1 h
        exact ⟨_, .name hx he hp hs (hFull hp)⟩
      | false =>
        by_cases hd : s.pins.inData = Config.syncByte
        · exact ⟨_, .sync hx he hp hs hd⟩
        · exact ⟨_, .load hx he (.inr ⟨hp, hs, hd⟩)⟩
    · exact ⟨_, .load hx he (.inl hp)⟩

/-- Under the invariants a taken sample is one of the leader's or of the cell's (R39 I5), and DONE presents none. -/
theorem exists_edge_of_outXfer {s : State} (h : Invariants s.regs) (ho : outXfer s = true) :
    s.regs.phase ≠ .done ∧ ∃ u, Edge s u := by
  obtain ⟨hr, hcase, hready⟩ := (outXfer_iff s).1 ho
  cases hb : s.regs.haveByte with
  | true =>
    obtain ⟨hp, -, hCell, -⟩ := (invariants_pending_iff hb).1 h
    exact ⟨by rcases hp with hp | hp <;> simp [hp], _, .sample hr hp hb hready hCell⟩
  | false =>
    have hp : s.regs.phase = .leader1 ∨ s.regs.phase = .leader2 := by simpa [hb] using hcase
    exact ⟨by rcases hp with hp | hp <;> simp [hp], _, .leader hr hp hready⟩

/-- Progress: from a state with the invariants every step goes on, by one of the cases of `Edge`. -/
theorem exists_step {s : State} (h : Invariants s.regs) : ∃ u, Edge s u ∧ step s = .next (tick u) := by
  cases hr : s.pins.rst with
  | true => exact ⟨_, .reset hr, by rw [step_eq, exec_phase_reset hr]; rfl⟩
  | false =>
    cases hx : inXfer s with
    | true =>
      obtain ⟨u, he⟩ := exists_edge_of_inXfer h hx
      obtain ⟨-, hp, -⟩ := (inXfer_iff s).1 hx
      exact ⟨u, he, step_of_transfer he (.inl hx) (by rcases hp with hp | hp <;> simp [hp])⟩
    | false =>
      cases ho : outXfer s with
      | true =>
        obtain ⟨hd, u, he⟩ := exists_edge_of_outXfer h ho
        exact ⟨u, he, step_of_transfer he (.inr ho) hd⟩
      | false => exact ⟨s, .wait hr hx (.inr ho), step_wait h hr hx ho⟩

/-! ## The exhausted block -/

theorem Edge.pins_eq {s u : State} (he : Edge s u) : u.pins = s.pins := by cases he <;> rfl

theorem Edge.coming_eq {s u : State} (he : Edge s u) : u.coming = s.coming := by cases he <;> rfl

/-- Only an input transfer adds to the tokens pulled. -/
theorem Edge.pulls_eq {s u : State} (he : Edge s u) (hx : inXfer s = false) : pulls u.history = pulls s.history := by
  cases he with
  | reset | wait => rfl
  | leader | sample => simp
  | load hx' | sync hx' | name hx' | eof hx' => simp [hx] at hx'

/-- Only reset clears `eof_seen` (10_state.md R29). -/
theorem Edge.eofSeen_kept {s u : State} (he : Edge s u) (hr : s.pins.rst = false) (h : s.regs.eofSeen = true) :
    u.regs.eofSeen = true := by
  cases he with
  | reset hr' => simp [hr] at hr'
  | eof => rfl
  | _ => simpa using h

theorem noResetComing_tick {s : State} (h : Claims.NoResetComing s) : Claims.NoResetComing (tick s) := by
  have hcoming : ∀ p ∈ s.coming, p.rst = false := fun p hp => h p (List.mem_cons_of_mem _ hp)
  cases hc : s.coming with
  | nil => simp [Claims.NoResetComing, hc, Pins.idle]
  | cons p ps => simpa [Claims.NoResetComing, hc] using hcoming

/-- With EOF pulled the block is in the second leader or in DONE, and asks for nothing (R39 I11). -/
theorem inReady_of_eofSeen {s : State} (h : Invariants s.regs) (he : s.regs.eofSeen = true) :
    (s.regs.phase = .leader2 ∨ s.regs.phase = .done) ∧ inReady s = false := by
  obtain ⟨-, -, -, -, -, -, -, -, -, hExhausted, -⟩ := h
  have hp := hExhausted he
  exact ⟨hp, by rcases hp with hp | hp <;> simp [inReady, inDataPhase, hp]⟩

/-- One step of the exhausted block. -/
theorem step_exhausted {s : State} (h : Invariants s.regs) (he : s.regs.eofSeen = true) (hn : Claims.NoResetComing s) :
    ∃ t, step s = .next t ∧ Invariants t.regs ∧ t.regs.eofSeen = true ∧ Claims.NoResetComing t ∧
      pulls t.history = pulls s.history := by
  obtain ⟨u, hu, hstep⟩ := exists_step h
  have hr : s.pins.rst = false := hn _ (by simp)
  have hx : inXfer s = false := by simp [inXfer, (inReady_of_eofSeen h he).2]
  refine ⟨tick u, hstep, hu.invariants h, hu.eofSeen_kept hr he, noResetComing_tick ?_, hu.pulls_eq hx⟩
  rwa [Claims.NoResetComing, hu.pins_eq, hu.coming_eq]

/-- Settles O41, by induction on the number of steps: each keeps `eof_seen` and pulls nothing. -/
theorem exhaustedBlockNeverPullsAgain : Obligations.ExhaustedBlockNeverPullsAgain := by
  intro n
  induction n with
  | zero =>
    intro s h he _
    obtain ⟨hp, hi⟩ := inReady_of_eofSeen h he
    exact ⟨hp, hi, s, run_zero s, he, rfl⟩
  | succ n ih =>
    intro s h he hn
    obtain ⟨hp, hi⟩ := inReady_of_eofSeen h he
    obtain ⟨t, hstep, ht, het, hnt, hpulls⟩ := step_exhausted h he hn
    obtain ⟨-, -, v, hrun, hev, hpulls'⟩ := ih t ht het hnt
    exact ⟨hp, hi, v, (run_step hstep).trans hrun, hev, hpulls'.trans hpulls⟩

end Sys2Proof.Machine
end

section
/-! The tone-table ROM, its holes, and what a step's transfer shows of the ports (20_memory.md). -/

namespace Sys2Proof.Machine

/-! ## The ROM and its holes -/

/-- Settles O29, by reading the fourteen entries. -/
theorem romHoldsTheTwoTables : Obligations.RomHoldsTheTwoTables := by
  unfold Obligations.RomHoldsTheTwoTables
  decide

/-- The Space table leaves seven holes above it and the Mark table eleven (20_memory.md R53). -/
theorem romRead_hole {a : RomAddr} (h : (9 ≤ a.toNat ∧ a.toNat ≤ 15) ∨ 21 ≤ a.toNat) :
    romRead a = .error (.romHole a) := by
  revert a
  decide

/-- A mark cell's addresses start at 0x10 (30_encoding.md R85). -/
theorem romAddr_mark (i : Fin Config.spaceLen) : romAddr .mark i = BitVec.ofNat 5 (16 + i.val) := by
  revert i
  decide

/-- EMIT_MARK's edge in its cell, with no bound on the sample index. -/
theorem execEmitMark_eq {s : State} (hr : s.pins.rst = false) (hp : s.regs.phase = .header ∨ s.regs.phase = .body)
    (hb : s.regs.haveByte = true) (ht : tone s.regs = .mark) : execEmitMark s = emitSample .mark s := by
  have hd : inDataPhase s.regs = true := (inDataPhase_iff _).2 hp
  have hsel : selected .emitMark s = true := by simp [selected, hd, hb, ht]
  rw [execEmitMark, hsel, clocked_running hr]

/-- Settles O13: from sample 5 on the read is past the Mark table, and a faulting read is presented as its fault. -/
theorem markCellPastItsEndFaults : Obligations.MarkCellPastItsEndFaults := by
  intro s hr hp hb hbit hpast
  have ht : tone s.regs = .mark := by rw [tone_eq_bitTone, bitTone, if_pos hbit]
  calc exec .emitMark s
      = emitSample .mark s := execEmitMark_eq hr hp hb ht
    _ = .fault (.romHole (romAddr .mark s.regs.sampIdx)) := by rw [emitSample, romRead_past_mark _ hpast, present]
    _ = .fault (.romHole (BitVec.ofNat 5 (16 + s.regs.sampIdx.val))) := by rw [romAddr_mark]

/-! ## The presented sample has a value -/

theorem outValid_iff (s : State) :
    outValid s = true ↔ s.pins.rst = false ∧ (inLeader s.regs = true ∨ s.regs.haveByte = true) := by
  simp only [outValid, Bool.and_eq_true, Bool.or_eq_true, Bool.not_eq_true']

/-- With a byte pending, the invariants keep the cell's address inside the tone's table (10_state.md R39 I5). -/
theorem romRead_pending {r : Regs} (h : Invariants r) (hb : r.haveByte = true) :
    ∃ x, romRead (romAddr (tone r) r.sampIdx) = .ok x := by
  obtain ⟨-, -, hCell, -⟩ := (invariants_pending_iff hb).1 h
  exact ⟨_, romRead_in_cell (tone r) r.sampIdx hCell⟩

/-- A presented sample is the silence value or an entry of the ROM, never a hole. -/
theorem exists_outData {s : State} (h : Invariants s.regs) (hv : outValid s = true) : ∃ x, outData s = .ok x := by
  obtain ⟨hr, hl | hb⟩ := (outValid_iff s).1 hv
  · exact ⟨_, outData_in_leader hr hl⟩
  · obtain ⟨hp, -⟩ := (invariants_pending_iff hb).1 h
    rw [outData_in_cell hr hp hb]
    exact romRead_pending h hb

/-- Settles O30: the holes are the addresses without a row, the invariants keep a cell's address off them, and every
driven run has the invariants. -/
theorem holesFaultAndAreNeverRead : Obligations.HolesFaultAndAreNeverRead := by
  refine ⟨fun _ => romRead_hole, fun s h hv => ⟨exists_outData h hv, fun hl => ?_⟩,
    fun env n => exists_outData (drive_invariants env n)⟩
  obtain ⟨-, hcase⟩ := (outValid_iff s).1 hv
  exact romRead_pending h (hcase.resolve_left (by simp [hl]))

/-! ## What a clock edge records -/

theorem outValid_of_outXfer {s : State} (ho : outXfer s = true) : outValid s = true := by
  rw [outXfer, Bool.and_eq_true] at ho
  exact ho.1

/-- At an output transfer the edge records the push of what is presented (20_memory.md R59). -/
theorem Edge.history_of_outXfer {s u : State} (he : Edge s u) (h : Invariants s.regs) (ho : outXfer s = true) :
    ∃ x, outData s = .ok x ∧ u.history = s.history ++ [.push x] := by
  have hi : inXfer s = false := inXfer_of_outValid (outValid_of_outXfer ho)
  obtain ⟨hr, -⟩ := (outXfer_iff s).1 ho
  cases he with
  | reset hr' => simp [hr] at hr'
  | wait _ _ hstill =>
    obtain ⟨hd, -⟩ := exists_edge_of_outXfer h ho
    simp [hd, ho] at hstill
  | leader _ hp => exact ⟨_, outData_in_leader hr ((inLeader_iff _).2 hp), rfl⟩
  | sample _ hp hb _ hc => exact ⟨_, (outData_in_cell hr hp hb).trans (romRead_in_cell _ _ hc), rfl⟩
  | load hx | sync hx | name hx | eof hx => simp [hi] at hx

/-- At an input transfer the edge records the pull of the token on the port (20_memory.md R58). -/
theorem Edge.history_of_inXfer {s u : State} (he : Edge s u) (hi : inXfer s = true) :
    u.history = s.history ++ [.pull (portToken s.pins)] := by
  obtain ⟨hr, hp, hb, -⟩ := (inXfer_iff s).1 hi
  cases he with
  | reset hr' => simp [hr] at hr'
  | wait _ hi' => simp [hi] at hi'
  | leader _ hl => rcases hp with hp | hp <;> simp [hp] at hl
  | sample _ _ hb' => simp [hb] at hb'
  | load _ heof | sync _ heof | name _ heof | eof _ heof => simp [portToken_eq, heof]

/-- Without a transfer the edge records nothing: it is a wait or a reset. -/
theorem Edge.history_of_no_transfer {s u : State} (he : Edge s u) (hi : inXfer s = false) (ho : outXfer s = false) :
    u.history = s.history := by
  cases he with
  | reset | wait => rfl
  | leader hr hp hready => simp [outXfer_of_leader hr hp hready] at ho
  | sample hr _ hb hready => simp [outXfer_of_pending hr hb hready] at ho
  | load hx | sync hx | name hx | eof hx => simp [hi] at hx

/-- Settles O57: under the invariants every step goes on by a clock edge, and what an edge records is read off its
cases. -/
theorem stepTransfersWhatThePortsShow : Obligations.StepTransfersWhatThePortsShow := by
  intro s h
  obtain ⟨u, he, hstep⟩ := exists_step h
  refine ⟨tick u, hstep, he.history_of_outXfer h, fun hi heof => ?_, fun hi heof => ?_, he.history_of_no_transfer⟩
  · simpa [portToken_eq, heof] using he.history_of_inXfer hi
  · simpa [portToken_eq, heof] using he.history_of_inXfer hi

end Sys2Proof.Machine
end

section
/-! The decoder and the encoder, site by site, and their two round trips (30_encoding.md R81 to R91). -/

namespace Sys2Proof

/-! ## The decoder on the words of a site's width -/

theorem decode_toneSelect (t : ToneBit) : decode .toneSelect t.toNat = .ok (decodeTone t).toInstr := by
  have hw : ¬2 ^ Site.toneSelect.format.width ≤ t.toNat := Nat.not_le.2 t.isLt
  rw [decode, if_neg hw, BitVec.ofNat_toNat, BitVec.setWidth_eq]

theorem decode_byteRegister (b : Byte) : decode .byteRegister b.toNat = .ok (.encodeByte b) := by
  have hw : ¬2 ^ Site.byteRegister.format.width ≤ b.toNat := Nat.not_le.2 b.isLt
  rw [decode, if_neg hw, BitVec.ofNat_toNat, BitVec.setWidth_eq]

theorem decode_leaderSelect (c : PhaseCode) : decode .leaderSelect c.toNat = decodeLeaderWord c := by
  have hw : ¬2 ^ Site.leaderSelect.format.width ≤ c.toNat := Nat.not_le.2 c.isLt
  rw [decode, if_neg hw, BitVec.ofNat_toNat, BitVec.setWidth_eq]

theorem decode_phaseRegister (c : PhaseCode) : decode .phaseRegister c.toNat = decodePhaseWord c := by
  have hw : ¬2 ^ Site.phaseRegister.format.width ≤ c.toNat := Nat.not_le.2 c.isLt
  rw [decode, if_neg hw, BitVec.ofNat_toNat, BitVec.setWidth_eq]

theorem decode_tokenPort (searching : Bool) (t : TokenWord) :
    decode (.tokenPort searching) t.toNat = .ok (decodeTokenOp searching t).toInstr := by
  have hw : ¬2 ^ (Site.tokenPort searching).format.width ≤ t.toNat := Nat.not_le.2 t.isLt
  rw [decode, if_neg hw, BitVec.ofNat_toNat, BitVec.setWidth_eq]

theorem decode_stray {site : Site} {w : Nat} (h : 2 ^ site.format.width ≤ w) :
    decode site w = .error (.strayBits w) := by
  unfold decode
  rw [if_pos h]

theorem lt_width_of_decode {site : Site} {w : Nat} {i : Instr} (h : decode site w = .ok i) :
    w < 2 ^ site.format.width := by
  by_contra hw
  rw [decode_stray (Nat.not_lt.1 hw)] at h
  cases h

/-- A number within a site's width is a word of the site's format. -/
theorem word_cases {motive : (site : Site) → (w : Nat) → w < 2 ^ site.format.width → Prop}
    (toneSelect : ∀ t : ToneBit, motive .toneSelect t.toNat t.isLt)
    (byteRegister : ∀ b : Byte, motive .byteRegister b.toNat b.isLt)
    (leaderSelect : ∀ c : PhaseCode, motive .leaderSelect c.toNat c.isLt)
    (phaseRegister : ∀ c : PhaseCode, motive .phaseRegister c.toNat c.isLt)
    (tokenPort : ∀ (searching : Bool) (t : TokenWord), motive (.tokenPort searching) t.toNat t.isLt)
    (site : Site) (w : Nat) (hw : w < 2 ^ site.format.width) : motive site w hw := by
  cases site with
  | toneSelect => exact toneSelect (.ofNatLT w hw)
  | byteRegister => exact byteRegister (.ofNatLT w hw)
  | leaderSelect => exact leaderSelect (.ofNatLT w hw)
  | phaseRegister => exact phaseRegister (.ofNatLT w hw)
  | tokenPort searching => exact tokenPort searching (.ofNatLT w hw)

/-! ## The two readers of a phase code -/

theorem decodePhaseWord_eq_ok {c : PhaseCode} {i : Instr} :
    decodePhaseWord c = .ok i ↔ ∃ p : Phase, c = p.code ∧ p.toInstr = i := by
  unfold decodePhaseWord
  simp only [← decodePhase_eq_some]
  cases decodePhase c <;> simp

theorem decodeLeaderWord_eq_ok {c : PhaseCode} {i : Instr} :
    decodeLeaderWord c = .ok i ↔ ∃ p : Leader, c = p.phase.code ∧ .emitLeader p = i := by
  unfold decodeLeaderWord
  simp only [← decodeLeader_eq_some]
  cases decodeLeader c <;> simp

theorem decodePhaseWord_refuses_iff {c : PhaseCode} :
    (∃ e, decodePhaseWord c = .error e) ↔ 5 ≤ c.toNat := by
  have hnone : decodePhase c = none ↔ 5 ≤ c.toNat := by
    revert c
    decide
  rw [← hnone, decodePhaseWord]
  cases decodePhase c <;> simp

theorem decodeLeaderWord_refuses_iff {c : PhaseCode} :
    (∃ e, decodeLeaderWord c = .error e) ↔ c.toNat ≠ 0 ∧ c.toNat ≠ 2 := by
  have hnone : decodeLeader c = none ↔ c.toNat ≠ 0 ∧ c.toNat ≠ 2 := by
    revert c
    decide
  rw [← hnone, decodeLeaderWord]
  cases decodeLeader c <;> simp

/-- Settles O3: within the width only the two readers of a phase code can refuse, each by its own table. -/
theorem onlyReservedOrNonLeaderCodesAreRefused : Obligations.OnlyReservedOrNonLeaderCodesAreRefused := by
  intro site w hw
  induction site, w, hw using word_cases with
  | toneSelect t => simp [decode_toneSelect]
  | byteRegister b => simp [decode_byteRegister]
  | leaderSelect c =>
    rw [decode_leaderSelect, decodeLeaderWord_refuses_iff]
    simp
  | phaseRegister c =>
    rw [decode_phaseRegister, decodePhaseWord_refuses_iff]
    simp
  | tokenPort searching t => simp [decode_tokenPort]

/-! ## Decode after encode -/

theorem decode_tone (t : Tone) : decode .toneSelect t.bit.toNat = .ok t.toInstr := by
  rw [decode_toneSelect, decodeTone_bit]

theorem decode_leader (p : Leader) : decode .leaderSelect p.phase.code.toNat = .ok (.emitLeader p) := by
  rw [decode_leaderSelect, decodeLeaderWord_eq_ok.2 ⟨p, rfl, rfl⟩]

theorem decode_phase (p : Phase) : decode .phaseRegister p.code.toNat = .ok p.toInstr := by
  rw [decode_phaseRegister, decodePhaseWord_eq_ok.2 ⟨p, rfl, rfl⟩]

/-- A byte's word at the token port is TOK_BYTE, but for the sync byte in the search (30_encoding.md R91). -/
theorem decode_byteToken {searching : Bool} {d : Byte} (h : ¬(searching = true ∧ d = Config.syncByte)) :
    decode (.tokenPort searching) (Token.byte d).word.toNat = .ok (.tokByte d) := by
  rw [decode_tokenPort, Token.word, decodeTokenOp_tokenWord, if_neg Bool.false_ne_true, if_neg (by simpa using h)]
  rfl

theorem decode_syncToken : decode (.tokenPort true) (Token.byte Config.syncByte).word.toNat = .ok .tokSync := by
  rw [decode_tokenPort, Token.word, decodeTokenOp_tokenWord]
  rfl

theorem decode_eofToken (searching : Bool) : decode (.tokenPort searching) Token.eof.word.toNat = .ok .tokEof := by
  rw [decode_tokenPort, Token.word, decodeTokenOp_tokenWord]
  rfl

/-- Settles O1: each operation fixes its site, but for the tokens, and there the site's format decodes its own word. -/
theorem decodeOfEncodeIsTheOperation : Obligations.DecodeOfEncodeIsTheOperation := by
  intro site i h
  cases i with
  | emitSpace => rw [eq_of_beq h]; exact decode_tone .space
  | emitMark => rw [eq_of_beq h]; exact decode_tone .mark
  | encodeByte b => rw [eq_of_beq h]; exact decode_byteRegister b
  | emitLeader p => rw [eq_of_beq h]; exact decode_leader p
  | phLeader1 => rw [eq_of_beq h]; exact decode_phase .leader1
  | phHeader => rw [eq_of_beq h]; exact decode_phase .header
  | phLeader2 => rw [eq_of_beq h]; exact decode_phase .leader2
  | phBody => rw [eq_of_beq h]; exact decode_phase .body
  | phDone => rw [eq_of_beq h]; exact decode_phase .done
  | tokByte d =>
    simp only [Instr.wellFormedAt, Bool.or_eq_true, Bool.and_eq_true, beq_iff_eq, bne_iff_ne] at h
    rcases h with rfl | ⟨rfl, hd⟩
    · exact decode_byteToken (by simp)
    · exact decode_byteToken fun hsync => hd hsync.2
  | tokSync => rw [eq_of_beq h]; exact decode_syncToken
  | tokEof =>
    cases site with
    | tokenPort searching => exact decode_eofToken searching
    | _ => cases h

/-! ## Encode after decode -/

theorem encode_tone (t : Tone) : encode t.toInstr = t.bit.toNat := by cases t <;> rfl

theorem encode_phase (p : Phase) : encode p.toInstr = p.code.toNat := by cases p <;> rfl

theorem tone_wellFormed (t : Tone) : t.toInstr.wellFormedAt .toneSelect = true := by cases t <;> rfl

theorem phase_wellFormed (p : Phase) : p.toInstr.wellFormedAt .phaseRegister = true := by cases p <;> rfl

theorem bit_decodeTone (t : ToneBit) : (decodeTone t).bit = t := by
  revert t
  decide

theorem tokByte_wellFormed {searching : Bool} {d : Byte} (h : ¬(searching = true ∧ d = Config.syncByte)) :
    (Instr.tokByte d).wellFormedAt (.tokenPort searching) = true := by
  cases searching with
  | false => rfl
  | true => simpa [Instr.wellFormedAt] using h

/-- With `eof` = 1 a TOKEN word is at least 256 (30_encoding.md R81). -/
theorem eofWord_ge (d : Byte) : 256 ≤ (tokenWord true d).toNat := by
  revert d
  decide

/-- What a TOKEN word decodes to can be read at the port, and is encoded by the word, but for EOF's data. -/
theorem encode_decodeTokenOp (searching : Bool) (t : TokenWord) :
    (decodeTokenOp searching t).toInstr.wellFormedAt (.tokenPort searching) = true ∧
      (encode (decodeTokenOp searching t).toInstr = t.toNat ∨
        ((decodeTokenOp searching t).toInstr = .tokEof ∧ 256 ≤ t.toNat)) := by
  rw [← tokenWord_fields t, decodeTokenOp_tokenWord]
  generalize tokenData t = d
  cases tokenEofBit t with
  | true => exact ⟨rfl, .inr ⟨rfl, eofWord_ge d⟩⟩
  | false =>
    rw [if_neg Bool.false_ne_true]
    by_cases h : searching = true ∧ d = Config.syncByte
    · obtain ⟨rfl, rfl⟩ := h
      exact ⟨rfl, .inl rfl⟩
    · rw [if_neg (by simpa using h)]
      exact ⟨tokByte_wellFormed h, .inl rfl⟩

/-- Settles O2: at each site the word is recovered from what its format's decoder read. -/
theorem decodedWordIsTheOperationsWord : Obligations.DecodedWordIsTheOperationsWord := by
  intro site w i h
  have hw := lt_width_of_decode h
  rw [and_left_comm]
  refine ⟨hw, ?_⟩
  induction site, w, hw using word_cases with
  | toneSelect t =>
    cases h.symm.trans (decode_toneSelect t)
    exact ⟨tone_wellFormed _, .inl (by rw [encode_tone, bit_decodeTone])⟩
  | byteRegister b =>
    cases h.symm.trans (decode_byteRegister b)
    exact ⟨rfl, .inl rfl⟩
  | leaderSelect c =>
    obtain ⟨p, rfl, rfl⟩ := decodeLeaderWord_eq_ok.1 ((decode_leaderSelect c).symm.trans h)
    exact ⟨rfl, .inl rfl⟩
  | phaseRegister c =>
    obtain ⟨p, rfl, rfl⟩ := decodePhaseWord_eq_ok.1 ((decode_phaseRegister c).symm.trans h)
    exact ⟨phase_wellFormed p, .inl (encode_phase p)⟩
  | tokenPort searching t =>
    cases h.symm.trans (decode_tokenPort searching t)
    exact encode_decodeTokenOp searching t

/-- Settles O4, by decoding the ten words. -/
theorem wordsOfTheTableDecode : Obligations.WordsOfTheTableDecode := by
  unfold Obligations.WordsOfTheTableDecode
  decide

end Sys2Proof
end

section
/-! The operations nest: which of them a state selects, and the one clock edge that those share (30_encoding.md R87). -/

namespace Sys2Proof.Machine

/-! ## Every operation's edge is clocked -/

/-- Every operation answers for reset and for its selecting condition before its own edge (log 2, log 10). -/
theorem exec_eq_clocked (i : Instr) (s : State) : ∃ edge, exec i s = clocked (selected i s) s edge := by
  cases i <;> exact ⟨_, rfl⟩

theorem exec_reset (i : Instr) {s : State} (hr : s.pins.rst = true) : exec i s = .next (takeReset s) := by
  obtain ⟨edge, hedge⟩ := exec_eq_clocked i s
  rw [hedge, clocked_reset hr]

/-- Settles O9: every operation is clocked, and clocked without reset and without being selected it is refused. -/
theorem unselectedOperationIsRefused : Obligations.UnselectedOperationIsRefused := by
  intro i s hr hsel
  obtain ⟨edge, hedge⟩ := exec_eq_clocked i s
  rw [hedge, hsel]
  simp [clocked, hr]

/-- Settles O6: the fetch is the decoder at the phase register, and the idle levels are the ones written out. -/
theorem stepRunsTheDecodedOperation : Obligations.StepRunsTheDecodedOperation := by
  intro s i h
  have hstep : step s = afterEdge (exec i s) := by
    have hfetch : fetch s = .ok i := h
    simp only [step, hfetch]
  refine ⟨fun t ht => ?_, fun f hf => ?_, fun r hr => ?_⟩
  · rw [hstep, ht]
    rfl
  · rw [hstep, hf]
    rfl
  · rw [hstep, hr]
    rfl

/-! ## What a selected operation says about the state -/

theorem selected_phase_iff (p : Phase) (s : State) : selected p.toInstr s = true ↔ s.regs.phase = p := by
  cases p <;> simp [Phase.toInstr, selected]

theorem selected_leader_iff (p : Leader) (s : State) :
    selected (.emitLeader p) s = true ↔ s.regs.phase = p.phase := by
  simp [selected]

theorem selected_tone_iff (t : Tone) (s : State) :
    selected t.toInstr s = true ↔ inDataPhase s.regs = true ∧ s.regs.haveByte = true ∧ tone s.regs = t := by
  cases t <;> simp [Tone.toInstr, selected, and_assoc]

theorem selected_encodeByte_iff (b : Byte) (s : State) :
    selected (.encodeByte b) s = true ↔
      inDataPhase s.regs = true ∧ s.regs.haveByte = true ∧ s.regs.byteReg = b := by
  simp [selected, and_assoc]

theorem selected_token_iff (op : TokenOp) (s : State) :
    selected op.toInstr s = true ↔ inXfer s = true ∧ portOp s = op := by
  cases op <;> simp [TokenOp.toInstr, selected]

/-! ## Each nested operation's edge is the phase operation's -/

section
variable {s : State} (hr : s.pins.rst = false)
include hr

theorem clocked_selected {isSelected : Bool} {edge : Host.Outcome State Fault Refusal} (hsel : isSelected = true) :
    clocked isSelected s edge = edge := by
  rw [hsel, clocked_running hr]

theorem exec_tone_eq_phase {t : Tone} (hsel : selected t.toInstr s = true) :
    exec t.toInstr s = exec s.regs.phase.toInstr s := by
  obtain ⟨hp, hb, ht⟩ := (selected_tone_iff t s).1 hsel
  rw [exec_pending_byte hr ((inDataPhase_iff _).1 hp) hb, ht]
  cases t with
  | space => exact clocked_selected hr hsel
  | mark => exact clocked_selected hr hsel

theorem exec_encodeByte_eq_phase {b : Byte} (hsel : selected (.encodeByte b) s = true) :
    exec (.encodeByte b) s = exec s.regs.phase.toInstr s := by
  obtain ⟨hp, hb, rfl⟩ := (selected_encodeByte_iff b s).1 hsel
  have hp := (inDataPhase_iff _).1 hp
  rw [exec_pending_byte hr hp hb]
  exact execEncodeByte_eq hr hp hb

theorem exec_emitLeader_eq_phase {p : Leader} (hsel : selected (.emitLeader p) s = true) :
    exec (.emitLeader p) s = exec s.regs.phase.toInstr s := by
  have hp := (selected_leader_iff p s).1 hsel
  rw [exec_leader_phase hr (by cases p <;> simp [hp, Leader.phase])]
  exact execEmitLeader_eq p hr hp

theorem exec_token_eq_phase {op : TokenOp} (hsel : selected op.toInstr s = true) :
    exec op.toInstr s = exec s.regs.phase.toInstr s := by
  obtain ⟨hx, rfl⟩ := (selected_token_iff op s).1 hsel
  obtain ⟨-, hp, hb, -⟩ := (inXfer_iff s).1 hx
  rw [exec_no_byte hr hp hb, awaitToken, if_pos hx]
  cases portOp s <;> rfl

end

theorem exec_selected_phase {p : Phase} {s : State} (hsel : selected p.toInstr s = true) :
    exec p.toInstr s = exec s.regs.phase.toInstr s := by
  rw [(selected_phase_iff p s).1 hsel]

/-- R87, "The operations nest": without reset each kind of operation is the phase operation's part, and reset is the
same edge for all. -/
theorem exec_selected_eq_phase {i : Instr} {s : State} (hsel : selected i s = true) :
    exec i s = exec s.regs.phase.toInstr s := by
  cases hr : s.pins.rst with
  | true => rw [exec_reset i hr, exec_phase_reset hr]
  | false =>
    cases i with
    | emitSpace => exact exec_tone_eq_phase hr (t := .space) hsel
    | emitMark => exact exec_tone_eq_phase hr (t := .mark) hsel
    | encodeByte b => exact exec_encodeByte_eq_phase hr hsel
    | emitLeader p => exact exec_emitLeader_eq_phase hr hsel
    | phLeader1 => exact exec_selected_phase (p := .leader1) hsel
    | phHeader => exact exec_selected_phase (p := .header) hsel
    | phLeader2 => exact exec_selected_phase (p := .leader2) hsel
    | phBody => exact exec_selected_phase (p := .body) hsel
    | phDone => exact exec_selected_phase (p := .done) hsel
    | tokByte d => exact exec_token_eq_phase hr (op := .byte d) hsel
    | tokSync => exact exec_token_eq_phase hr (op := .sync) hsel
    | tokEof => exact exec_token_eq_phase hr (op := .eof) hsel

theorem step_selected {i : Instr} {s : State} (hsel : selected i s = true) : step s = afterEdge (exec i s) := by
  rw [step_eq, exec_selected_eq_phase hsel]

/-- Settles O7: the selected operation's edge is the phase operation's, which the step executes. -/
theorem selectedOperationsShareOneEdge : Obligations.SelectedOperationsShareOneEdge :=
  fun _ _ hsel => ⟨exec_selected_eq_phase hsel, step_selected hsel⟩

/-! ## A placed word is selected -/

section
variable (b : Byte) (r : Regs)
@[simp] theorem holdByte_byteReg : (holdByte b r).byteReg = b := rfl

theorem holdByte_in_data_phase : inDataPhase (holdByte b r) = true := by
  show inDataPhase { r with phase := dataPhaseOf r } = true
  cases hd : inDataPhase r <;> simp [dataPhaseOf, hd]

/-- A held byte starts with its first cell. -/
theorem tone_holdByte : tone (holdByte b r) = bitTone b 0 := tone_eq_bitTone _

end

theorem placeWord_rst (site : Site) (w : Nat) (s : State) : (placeWord site w s).pins.rst = false := by
  cases site <;> rfl

/-- The operation read from a word is selected once the word is placed (log 19). -/
theorem placeWord_selects {site : Site} {w : Nat} {i : Instr} (s : State) (h : decode site w = .ok i) :
    selected i (placeWord site w s) = true := by
  have hw := lt_width_of_decode h
  induction site, w, hw using word_cases with
  | toneSelect t =>
    cases h.symm.trans (decode_toneSelect t)
    refine (selected_tone_iff _ _).2 ⟨holdByte_in_data_phase _ _, rfl, (tone_holdByte _ _).trans ?_⟩
    rw [BitVec.ofNat_toNat, BitVec.setWidth_eq]
    cases decodeTone t <;> rfl
  | byteRegister b =>
    cases h.symm.trans (decode_byteRegister b)
    refine (selected_encodeByte_iff _ _).2 ⟨holdByte_in_data_phase _ _, rfl, ?_⟩
    simp [placeWord]
  | leaderSelect c =>
    obtain ⟨p, rfl, rfl⟩ := decodeLeaderWord_eq_ok.1 ((decode_leaderSelect c).symm.trans h)
    simp [selected_leader_iff, placeWord]
  | phaseRegister c =>
    obtain ⟨p, rfl, rfl⟩ := decodePhaseWord_eq_ok.1 ((decode_phaseRegister c).symm.trans h)
    simp [selected_phase_iff, placeWord]
  | tokenPort searching t =>
    cases h.symm.trans (decode_tokenPort searching t)
    refine (selected_token_iff _ _).2 ⟨?_, ?_⟩
    · cases searching <;> rfl
    · have hsearch : Machine.searching (placeWord (.tokenPort searching) t.toNat s).regs = searching := by
        cases searching <;> rfl
      have hword : portWord (placeWord (.tokenPort searching) t.toNat s).pins = t := by
        simp [placeWord, portWord, tokenWord_fields]
      rw [portOp, hsearch, hword]

theorem decodeTableWord_eq_some {nbits w : Nat} {i : Instr} :
    decodeTableWord nbits w = some i ↔ ∃ site, tableSite nbits w = some site ∧ decode site w = .ok i := by
  unfold decodeTableWord
  cases tableSite nbits w with
  | none => simp
  | some site => cases hd : decode site w <;> simp [hd]

/-- Settles O8: the table word is placed at the site it is decoded at, where its operation is selected. -/
theorem placedWordIsRunNext : Obligations.PlacedWordIsRunNext := by
  intro s nbits w i h
  obtain ⟨site, hsite, hdecode⟩ := decodeTableWord_eq_some.1 h
  have hplaced : s.withFetchWord nbits w = placeWord site w s := by simp only [State.withFetchWord, hsite]
  rw [hplaced]
  have hsel := placeWord_selects s hdecode
  exact ⟨hsel, placeWord_rst site w s, step_selected hsel⟩

end Sys2Proof.Machine
end

section
/-! The sync byte's two meanings, the sample values, and the order of the phases. -/

namespace Sys2Proof.Machine

/-! ## The pull of a byte -/

/-- Whatever a pulled byte is to the frame sequencer, it is loaded (43_frame_sequencer.md R142, R143, R144, R148). -/
theorem Edge.loads_byte {s u : State} (he : Edge s u) (hx : inXfer s = true) (heof : s.pins.inEof = false) :
    u.regs.byteReg = s.pins.inData ∧ u.regs.haveByte = true ∧ u.regs.bitIdx = 0 ∧ u.regs.sampIdx = 0 := by
  obtain ⟨hr, hp, hb, -⟩ := (inXfer_iff s).1 hx
  cases he with
  | load | sync | name => exact ⟨rfl, rfl, rfl, rfl⟩
  | reset hr' => simp [hr] at hr'
  | wait _ hx' => simp [hx] at hx'
  | leader _ hl => rcases hp with hp | hp <;> simp [hp] at hl
  | sample _ _ hb' => simp [hb] at hb'
  | eof _ heof' => simp [heof] at heof'

/-- Settles O5: the search alone tells TOK_SYNC from TOK_BYTE, and under the invariants either pull loads the byte. -/
theorem syncByteIsSpecialOnlyInTheSearch : Obligations.SyncByteIsSpecialOnlyInTheSearch := by
  intro s h hx heof hd
  have hop : portOp s = if searching s.regs then .sync else .byte 0x3C := by simp [portOp_eq, heof, hd]
  rw [← searching_iff]
  refine ⟨(selected_token_iff .sync s).trans ?_, (selected_token_iff (.byte 0x3C) s).trans ?_, ?_⟩
  · rw [hop]
    cases searching s.regs <;> simp [hx]
  · rw [hop]
    cases searching s.regs <;> simp [hx]
  · obtain ⟨u, he, hstep⟩ := exists_step h
    exact ⟨tick u, hstep, by simpa only [tick_regs, hd] using he.loads_byte hx heof⟩

/-! ## The sample values -/

/-- The entries of the two tone tables (20_memory.md R52). -/
theorem toneTable_values (t : Tone) :
    ∀ x ∈ toneTable t, x ∈ ([0x00, 0x25, 0x40, 0x80, 0xDA, 0xFF] : List Sample) := by
  cases t <;> decide

/-- Settles O31: a leader presents the silence value, and a cell an entry of its tone's table. -/
theorem presentedSampleIsOneOfSix : Obligations.PresentedSampleIsOneOfSix := by
  intro s h hv
  obtain ⟨hr, hl | hb⟩ := (outValid_iff s).1 hv
  · exact ⟨_, outData_in_leader hr hl, by decide⟩
  · obtain ⟨hp, -, hCell, -⟩ := (invariants_pending_iff hb).1 h
    refine ⟨_, (outData_in_cell hr hp hb).trans (romRead_in_cell _ _ hCell), ?_⟩
    exact toneTable_values (tone s.regs) _ (List.getElem_mem _)

/-! ## The order of the phases -/

/-- At the end of the byte only a full header changes the phase (43_frame_sequencer.md R146). -/
theorem advanceCell_leaves_header {t : Tone} {r : Regs} (h : (advanceCell t r).phase ≠ r.phase) :
    r.phase = .header ∧ (advanceCell t r).phase = .leader2 ∧ r.bitIdx.val = 7 ∧ lastSamp t r = true ∧
      r.syncFound = true ∧ r.nameCnt.val = 18 := by
  obtain ⟨hp, hb, hs⟩ := advanceCell_phase_change h
  rw [advanceCell_end_byte hs ((lastBit_iff r).2 hb), endByte_phase, hp] at h ⊢
  cases hf : hdrFull r with
  | false => simp [hf] at h
  | true => exact ⟨rfl, rfl, hb, hs, (hdrFull_iff r).1 hf⟩

/-- A leader's phase changes at its last sample, to the phase it leads to (42_leader_generator.md R131). -/
theorem advanceLeader_phase (r : Regs) :
    (advanceLeader r).phase = r.phase ∨ (r.lcnt.val = 11024 ∧ (advanceLeader r).phase = afterLeader r) := by
  cases hl : lastLead r with
  | false => exact .inl (by rw [advanceLeader_inside hl])
  | true => exact .inr ⟨(lastLead_iff r).1 hl, by rw [advanceLeader_last hl]⟩

/-- Settles O37: the cases of a clock edge give the five transitions, and each of those leads to a larger code. -/
theorem phasesMoveOnlyForward : Obligations.PhasesMoveOnlyForward := by
  intro s t hstep hr
  obtain ⟨u, he, rfl⟩ := step_edge hstep
  rw [tick_regs]
  refine (and_iff_right_of_imp ?_).2 ?_
  · rintro (h | ⟨h, h', -⟩ | ⟨h, h', -⟩ | ⟨h, h', -⟩ | ⟨h, h', -⟩ | ⟨h, h', -⟩)
    · rw [h]
    all_goals
      rw [h, h']
      decide
  · cases he with
    | reset hr' => simp [hr] at hr'
    | wait | load | sync | name => exact .inl rfl
    | leader _ hp ho =>
      have hx := outXfer_of_leader hr hp ho
      rcases advanceLeader_phase s.regs with hsame | ⟨hlast, hafter⟩
      · exact .inl hsame
      · rw [transfer_regs, hafter]
        rcases hp with hp | hp
        · simp [afterLeader, hp, hlast, hx]
        · cases he : s.regs.eofSeen <;> simp [afterLeader, hp, hlast, hx, he]
    | sample _ hp hb ho =>
      by_cases hsame : (advanceCell (tone s.regs) s.regs).phase = s.regs.phase
      · exact .inl hsame
      · obtain ⟨hh, hafter, hcause⟩ := advanceCell_leaves_header hsame
        exact .inr (.inr (.inl ⟨hh, hafter, .inr ⟨outXfer_of_pending hr hb ho, hcause⟩⟩))
    | eof hx heof =>
      obtain ⟨-, hp, -⟩ := (inXfer_iff s).1 hx
      rcases hp with hp | hp <;> simp [hp, hx, heof]

end Sys2Proof.Machine
end

section
/-! One clock edge of a cell, said once for both tones and for every operation that nests around it
(40_tone_synthesizer.md). -/

namespace Sys2Proof.Machine

/-! ## The tone and the end of a cell -/

/-- The selected bit is the tone: 1 for Mark and 0 for Space (30_encoding.md R83). -/
theorem tone_of_bit {t : Tone} {r : Regs} (hbit : r.byteReg.getLsbD r.bitIdx.val = (t == .mark)) : tone r = t := by
  rw [tone_eq_bitTone, bitTone, hbit]
  cases t <;> rfl

theorem lastSamp_iff (t : Tone) (r : Regs) : lastSamp t r = true ↔ r.sampIdx.val + 1 = cellLen t := by
  have hpos := cellLen_pos t
  simp only [lastSamp, beq_iff_eq]
  omega

theorem lastSamp_eq_false {t : Tone} {r : Regs} (h : r.sampIdx.val + 1 < cellLen t) : lastSamp t r = false :=
  Bool.eq_false_iff.2 fun hl => h.ne ((lastSamp_iff t r).1 hl)

theorem lastBit_eq_false {r : Regs} (h : r.bitIdx.val < 7) : lastBit r = false :=
  Bool.eq_false_iff.2 fun hl => h.ne ((lastBit_iff r).1 hl)

theorem advanceCell_last {t : Tone} {r : Regs} (hs : lastSamp t r = true) : advanceCell t r = endCell r := by
  simp [advanceCell, hs]

theorem endByte_eq (r : Regs) :
    endByte r = { r with
      sampIdx := 0
      bitIdx := 0
      haveByte := false
      phase := if r.phase = .header ∧ r.syncFound = true ∧ r.nameCnt.val = 18 then .leader2 else r.phase } := by
  simp [endByte, clearHaveByte, hdrFull]

theorem endCell_next_bit {r : Regs} (hb : lastBit r = false) :
    endCell r = { r with sampIdx := 0, bitIdx := r.bitIdx + 1 } := by
  simp [endCell, hb]

section
variable (r : Regs)
@[simp] theorem endCell_sampIdx : (endCell r).sampIdx = 0 := by unfold endCell; split <;> rfl
@[simp] theorem endCell_lcnt : (endCell r).lcnt = r.lcnt := by unfold endCell; split <;> rfl
@[simp] theorem endCell_byteReg : (endCell r).byteReg = r.byteReg := by unfold endCell; split <;> rfl
@[simp] theorem endCell_syncFound : (endCell r).syncFound = r.syncFound := by unfold endCell; split <;> rfl
@[simp] theorem endCell_nameCnt : (endCell r).nameCnt = r.nameCnt := by unfold endCell; split <;> rfl
@[simp] theorem endCell_eofSeen : (endCell r).eofSeen = r.eofSeen := by unfold endCell; split <;> rfl
end

/-! ## The edge of every operation that a cell selects -/

/-- With a byte pending the block presents an output and asks for no input. -/
theorem outputs_of_pending {s : State} (hr : s.pins.rst = false) (hb : s.regs.haveByte = true) :
    inReady s = false ∧ outValid s = true :=
  ⟨by simp [inReady, hb], (outValid_iff s).2 ⟨hr, .inr hb⟩⟩

/-- An operation that every state of a tone's cell selects has the cell's edge: it presents the ROM's sample, which is
the table's, and at the transfer the three cases of `advanceCell` are the three ways to go on. -/
theorem cellEdge_of_selected {op : Byte → Instr} {phases : List Phase} (t : Tone)
    (hdata : ∀ p ∈ phases, p = .header ∨ p = .body)
    (hsel : ∀ s : State, s.regs.phase ∈ phases → s.regs.haveByte = true → tone s.regs = t →
      selected (op s.regs.byteReg) s = true) :
    Claims.CellEdge op phases (t == .mark) (toneTable t) := by
  intro s x hr hph hb hbit hx
  have hp := hdata _ hph
  have ht := tone_of_bit hbit
  have hread : romRead (romAddr (tone s.regs) s.regs.sampIdx) = .ok x := by
    obtain ⟨hlt, rfl⟩ := List.getElem?_eq_some_iff.1 hx
    rw [ht, romRead_in_cell t _ (by simpa using hlt)]
  have hexec : exec (op s.regs.byteReg) s = present (.ok x) (advanceCell t) s := by
    rw [exec_selected_eq_phase (hsel s hph hb ht), exec_pending_byte hr hp hb, emitSample, hread, ht]
  have hpush (ho : s.pins.outReady = true) :
      exec (op s.regs.byteReg) s = .next (s.transfer (.push x) (advanceCell t s.regs)) := by
    rw [hexec, present, if_pos (outXfer_of_pending hr hb ho)]
  obtain ⟨hin, hout⟩ := outputs_of_pending hr hb
  refine ⟨hin, hout, (outData_in_cell hr hp hb).trans hread, fun ho => ?_, fun ho hs => ?_, fun ho hs hbit7 => ?_,
    fun ho hs hbit7 => ?_⟩
  · rw [hexec, present, if_neg (by simp [outXfer, ho])]
  · rw [toneTable_length] at hs
    rw [hpush ho, advanceCell_inside (lastSamp_eq_false hs)]
  · rw [toneTable_length, ← lastSamp_iff] at hs
    rw [hpush ho, advanceCell_next_bit hs (lastBit_eq_false hbit7)]
  · rw [toneTable_length, ← lastSamp_iff] at hs
    rw [hpush ho, advanceCell_end_byte hs ((lastBit_iff _).2 hbit7), endByte_eq]

theorem data_phase_of_mem {p : Phase} (hp : p ∈ [Phase.header, .body]) : p = .header ∨ p = .body := by
  simpa using hp

/-- A tone's own operation is selected in its cells (40_tone_synthesizer.md R110, R111). -/
theorem emit_cellEdge (t : Tone) :
    Claims.CellEdge (fun _ => t.toInstr) [.header, .body] (t == .mark) (toneTable t) :=
  cellEdge_of_selected t (fun _ => data_phase_of_mem) fun s hp hb ht =>
    (selected_tone_iff t s).2 ⟨(inDataPhase_iff _).2 (data_phase_of_mem hp), hb, ht⟩

/-- ENCODE_BYTE of the pending byte is selected in the cells of either tone (41_bit_encoder.md R120). -/
theorem encodeByte_cellEdge (t : Tone) :
    Claims.CellEdge .encodeByte [.header, .body] (t == .mark) (toneTable t) :=
  cellEdge_of_selected t (fun _ => data_phase_of_mem) fun s hp hb _ =>
    (selected_encodeByte_iff _ s).2 ⟨(inDataPhase_iff _).2 (data_phase_of_mem hp), hb, rfl⟩

/-- Settles O10: EMIT_MARK is the operation of the Mark tone. -/
theorem emitMarkPushesOneMarkSample : Obligations.EmitMarkPushesOneMarkSample := emit_cellEdge .mark

/-- Settles O11: EMIT_SPACE is the operation of the Space tone. -/
theorem emitSpacePushesOneSpaceSample : Obligations.EmitSpacePushesOneSpaceSample := emit_cellEdge .space

/-- Settles O12: ENCODE_BYTE has the edge of the selected bit's cell, whichever tone that is. -/
theorem encodeByteRunsTheSelectedCell : Obligations.EncodeByteRunsTheSelectedCell :=
  ⟨encodeByte_cellEdge .mark, encodeByte_cellEdge .space⟩

end Sys2Proof.Machine
end

section
/-! A whole cell: the run of steps that pushes its table (40_tone_synthesizer.md R110 to R112). -/

namespace Sys2Proof.Machine

/-! ## A ready sink, cycle by cycle -/

theorem readyFor_now {n : Nat} {s : State} (h : Claims.ReadyFor (n + 1) s) :
    s.pins.rst = false ∧ s.pins.outReady = true := by
  obtain ⟨p, hp, hready⟩ := h 0 n.succ_pos
  cases hp
  exact hready

theorem readyFor_tick {n : Nat} {s : State} (h : Claims.ReadyFor (n + 1) s) : Claims.ReadyFor n (tick s) := by
  intro k hk
  obtain ⟨p, hp, hready⟩ := h (k + 1) (Nat.succ_lt_succ hk)
  refine ⟨p, ?_, hready⟩
  cases hc : s.coming with
  | nil => simp [hc] at hp
  | cons q qs => simpa [hc] using hp

/-! ## The steps of a cell -/

/-- The step of a cell in which the sink takes the sample (40_tone_synthesizer.md R112). -/
theorem step_in_cell {n : Nat} {s : State} (hp : s.regs.phase = .header ∨ s.regs.phase = .body)
    (hb : s.regs.haveByte = true) (hc : s.regs.sampIdx.val < cellLen (tone s.regs))
    (hready : Claims.ReadyFor (n + 1) s) :
    ∃ x u, step s = .next u ∧ u.regs = advanceCell (tone s.regs) s.regs ∧ u.history = s.history ++ [.push x] ∧
      (toneTable (tone s.regs)).drop s.regs.sampIdx.val =
        x :: (toneTable (tone s.regs)).drop (s.regs.sampIdx.val + 1) ∧
      Claims.ReadyFor n u := by
  obtain ⟨hr, ho⟩ := readyFor_now hready
  have hstep := step_of_transfer (.sample hr hp hb ho hc) (.inr (outXfer_of_pending hr hb ho))
    (by rcases hp with hp | hp <;> simp [hp])
  exact ⟨_, _, hstep, rfl, rfl, List.drop_eq_getElem_cons (by simpa using hc), readyFor_tick hready⟩

/-- The rest of a cell, by induction on the number of samples after the present one: each step but the last moves the
sample counter alone, and the last one ends the cell. -/
theorem run_rest_of_cell {t : Tone} {m k : Nat} {s : State} (hp : s.regs.phase = .header ∨ s.regs.phase = .body)
    (hb : s.regs.haveByte = true) (ht : tone s.regs = t) (hlen : s.regs.sampIdx.val + (k + 1) = cellLen t)
    (hready : Claims.ReadyFor (m + (k + 1)) s) :
    ∃ u, run (k + 1) s = .next u ∧ u.regs = endCell s.regs ∧
      u.history = s.history ++ ((toneTable t).drop s.regs.sampIdx.val).map .push ∧ Claims.ReadyFor m u := by
  induction k generalizing s with
  | zero =>
    subst ht
    obtain ⟨x, u, hstep, hregs, hhist, hdrop, hnext⟩ := step_in_cell hp hb (by omega) hready
    refine ⟨u, run_step hstep, ?_, ?_, hnext⟩
    · rw [hregs, advanceCell_last ((lastSamp_iff _ _).2 hlen)]
    · rw [hhist, hdrop, List.drop_of_length_le (by rw [toneTable_length]; omega)]
      rfl
  | succ k ih =>
    subst ht
    obtain ⟨x, v, hstep, hregs, hhist, hdrop, hnext⟩ := step_in_cell hp hb (by omega) hready
    have hs : lastSamp (tone s.regs) s.regs = false := lastSamp_eq_false (by omega)
    obtain ⟨hsamp, -⟩ := sampIdx_succ_in_cell (by omega) hs
    rw [advanceCell_inside hs] at hregs
    obtain ⟨u, hrun, huregs, huhist, hrest⟩ := ih (s := v) (by rwa [hregs]) (by rwa [hregs]) (by rw [hregs]; rfl)
      (by rw [hregs, hsamp]; omega) hnext
    refine ⟨u, (run_step hstep).trans hrun, ?_, ?_, hrest⟩
    · rw [huregs, hregs]
      rfl
    · rw [huhist, hhist, hdrop, hregs, hsamp]
      simp

/-- A cell from its first sample pushes its tone's table and ends; the sink may be ready for `m` cycles more. -/
theorem run_cell {t : Tone} {m : Nat} {s : State} (hp : s.regs.phase = .header ∨ s.regs.phase = .body)
    (hb : s.regs.haveByte = true) (ht : tone s.regs = t) (h0 : s.regs.sampIdx = 0)
    (hready : Claims.ReadyFor (m + cellLen t) s) :
    ∃ u, run (cellLen t) s = .next u ∧ u.regs = endCell s.regs ∧
      u.history = s.history ++ (toneTable t).map .push ∧ Claims.ReadyFor m u := by
  obtain ⟨k, hk⟩ := Nat.exists_eq_add_one.2 (cellLen_pos t)
  rw [hk] at hready ⊢
  simpa [h0] using run_rest_of_cell hp hb ht (by simp [h0, hk]) hready

/-- The run of a cell pushes the table and keeps the flags, the byte and the counters, and one of the cells 0 to 6 gives
way to the next cell in the same phase (41_bit_encoder.md R121). -/
theorem cell_pushes_its_table {t : Tone} {s : State} (hp : s.regs.phase = .header ∨ s.regs.phase = .body)
    (hb : s.regs.haveByte = true) (hbit : s.regs.byteReg.getLsbD s.regs.bitIdx.val = (t == .mark))
    (h0 : s.regs.sampIdx = 0) (hready : Claims.ReadyFor (cellLen t) s) :
    ∃ u, run (cellLen t) s = .next u ∧ u.history = s.history ++ (toneTable t).map .push ∧
      u.regs.sampIdx = 0 ∧ u.regs.syncFound = s.regs.syncFound ∧ u.regs.eofSeen = s.regs.eofSeen ∧
      u.regs.byteReg = s.regs.byteReg ∧ u.regs.nameCnt = s.regs.nameCnt ∧ u.regs.lcnt = s.regs.lcnt ∧
      (s.regs.bitIdx.val < 7 → u.regs.bitIdx.val = s.regs.bitIdx.val + 1 ∧ u.regs.haveByte = true ∧
        u.regs.phase = s.regs.phase) := by
  obtain ⟨u, hrun, hregs, hhist, -⟩ := run_cell (m := 0) hp hb (tone_of_bit hbit) h0 (by rwa [Nat.zero_add])
  refine ⟨u, hrun, hhist, ?_⟩
  rw [hregs]
  refine ⟨endCell_sampIdx _, endCell_syncFound _, endCell_eofSeen _, endCell_byteReg _, endCell_nameCnt _,
    endCell_lcnt _, fun hlt => ?_⟩
  rw [endCell_next_bit (lastBit_eq_false hlt)]
  exact ⟨bitIdx_succ_val (lastBit_eq_false hlt), hb, rfl⟩

/-- Settles O44: the run of a cell whose bit is 1 pushes the Mark table. -/
theorem markCellPushesItsFiveSamples : Obligations.MarkCellPushesItsFiveSamples :=
  fun _ hp hb hbit h0 hready => cell_pushes_its_table (t := .mark) hp hb hbit h0 hready

/-- Settles O45: the run of a cell whose bit is 0 pushes the Space table. -/
theorem spaceCellPushesItsNineSamples : Obligations.SpaceCellPushesItsNineSamples :=
  fun _ hp hb hbit h0 hready => cell_pushes_its_table (t := .space) hp hb hbit h0 hready

end Sys2Proof.Machine
end

section
/-! The bit encoder: the sample count of a byte, the two ends of a cell, and the run of steps that pushes a whole byte
(41_bit_encoder.md). -/

namespace Sys2Proof.Machine

/-! ## The samples of a byte -/

/-- A bit chooses its cell's table (41_bit_encoder.md R120). -/
theorem toneTable_bitTone (b : Byte) (i : Nat) :
    toneTable (bitTone b i) = if b.getLsbD i then Claims.markSamples else Claims.spaceSamples := by
  rw [bitTone]
  split <;> rfl

/-- A cell is four samples shorter for a one bit (41_bit_encoder.md R124). -/
theorem cellLen_bitTone (b : Byte) (i : Nat) : cellLen (bitTone b i) = if b.getLsbD i then 5 else 9 := by
  rw [bitTone]
  split <;> rfl

/-- Over any selection of a byte's bits, each cell has the nine samples of a space cell, or four less for a one bit. -/
theorem length_cells_add_four_mul_ones (b : Byte) (l : List Nat) :
    (l.flatMap fun i => toneTable (bitTone b i)).length + 4 * l.countP (b.getLsbD ·) = 9 * l.length := by
  induction l with
  | nil => rfl
  | cons i l ih =>
    rw [List.flatMap_cons, List.length_append, toneTable_length, cellLen_bitTone, List.countP_cons, List.length_cons]
    split <;> omega

theorem popcount_le (b : Byte) : popcount b ≤ 8 := List.countP_le_length

theorem enc_length (b : Byte) : (enc b).length = 72 - 4 * popcount b :=
  Nat.eq_sub_of_add_eq (length_cells_add_four_mul_ones b (List.range 8))

/-- Settles O48: every cell has nine samples, or four less for a one bit, and a byte has at most eight one bits. -/
theorem byteHasSeventyTwoMinusFourPerOneBit : Obligations.ByteHasSeventyTwoMinusFourPerOneBit := by
  refine ⟨fun b => ?_, by decide, by decide⟩
  have hle := popcount_le b
  rw [enc_length]
  omega

/-! ## The end of a cell and the next cycle -/

theorem endCell_end_byte {r : Regs} (hb : lastBit r = true) : endCell r = endByte r := by
  simp [endCell, hb]

/-- With a byte pending, the transfer of a cell's last sample ends the cell. -/
theorem step_ends_cell {s : State} (h : Invariants s.regs) (hb : s.regs.haveByte = true) (ho : outXfer s = true)
    (hs : lastSamp (tone s.regs) s.regs = true) : ∃ t, step s = .next t ∧ t.regs = endCell s.regs := by
  obtain ⟨hp, -, hCell, -⟩ := (invariants_pending_iff hb).1 h
  obtain ⟨hr, -, hready⟩ := (outXfer_iff s).1 ho
  have hstep := step_of_transfer (.sample hr hp hb hready hCell) (.inr ho)
    (exists_edge_of_outXfer h ho).1
  exact ⟨_, hstep, advanceCell_last hs⟩

/-- At the start of a cell the first sample of the selected bit's table is presented. -/
theorem outData_first_of_cell {s : State} (hr : s.pins.rst = false)
    (hp : s.regs.phase = .header ∨ s.regs.phase = .body) (hb : s.regs.haveByte = true) (h0 : s.regs.sampIdx = 0) :
    outData s = .ok ((toneTable (bitTone s.regs.byteReg s.regs.bitIdx.val)).headD 0) := by
  rw [outData_in_cell hr hp hb, h0, romRead_in_cell _ _ (cellLen_pos _), ← tone_eq_bitTone]
  cases tone s.regs <;> rfl

/-- Settles O39: before bit 7 the end of the cell moves the bit selector, and the byte is still pending. -/
theorem bitSelectorAdvancesAtTheEndOfACell : Obligations.BitSelectorAdvancesAtTheEndOfACell := by
  intro s h hb ho hs hbit
  obtain ⟨hp, -⟩ := (invariants_pending_iff hb).1 h
  have hlast : lastBit s.regs = false := Bool.eq_false_iff.2 fun hl => hbit ((lastBit_iff _).1 hl)
  have hnext := bitIdx_succ_val hlast
  obtain ⟨t, hstep, hregs⟩ := step_ends_cell h hb ho hs
  rw [endCell_next_bit hlast] at hregs
  have hpt : t.regs.phase = .header ∨ t.regs.phase = .body := by rwa [hregs]
  have hbt : t.regs.haveByte = true := by rwa [hregs]
  refine ⟨t, hstep, hregs, by rw [hregs]; exact hnext, fun hr => ⟨(outputs_of_pending hr hbt).2, ?_⟩⟩
  rw [outData_first_of_cell hr hpt hbt (by rw [hregs]), hregs, ← hnext]

/-- A data phase with no byte pending asks for a token and presents nothing (10_state.md R33, R34). -/
theorem outputs_of_no_byte {s : State} (hr : s.pins.rst = false) (hp : s.regs.phase = .header ∨ s.regs.phase = .body)
    (hb : s.regs.haveByte = false) : inReady s = true ∧ outValid s = false := by
  rcases hp with hp | hp <;> simp [inReady, outValid, inDataPhase, inLeader, hr, hp, hb]

/-- A leader presents its sample and asks for no token (10_state.md R33, R34, R35). -/
theorem outputs_of_leader {s : State} (hr : s.pins.rst = false) (hl : inLeader s.regs = true) :
    inReady s = false ∧ outValid s = true ∧ outData s = .ok Config.silence := by
  refine ⟨?_, (outValid_iff s).2 ⟨hr, .inl hl⟩, outData_in_leader hr hl⟩
  rcases (inLeader_iff _).1 hl with hp | hp <;> simp [inReady, inDataPhase, hp]

/-- Settles O40: at bit 7 the end of the cell ends the byte, and a full header is the one case that leaves the phase. -/
theorem endOfByteAsksOrStartsTheSecondLeader : Obligations.EndOfByteAsksOrStartsTheSecondLeader := by
  intro s h hb ho hs hbit
  obtain ⟨hp, -⟩ := (invariants_pending_iff hb).1 h
  obtain ⟨t, hstep, hregs⟩ := step_ends_cell h hb ho hs
  rw [endCell_end_byte ((lastBit_iff _).2 hbit), endByte_eq] at hregs
  refine ⟨t, hstep, fun hfull => ?_, fun hfull => ?_⟩
  · rw [if_pos hfull] at hregs
    exact ⟨hregs, fun hr => outputs_of_leader hr (by simp [hregs])⟩
  · rw [if_neg hfull] at hregs
    exact ⟨hregs, fun hr => outputs_of_no_byte hr (by rwa [hregs]) (by rw [hregs])⟩

/-! ## A whole byte -/

/-- The samples of the `n` cells from bit `i` on: what is left of `enc(b)` at the start of cell `i`. -/
def cellsFrom (b : Byte) (i n : Nat) : List Sample := (List.range' i n).flatMap fun j => toneTable (bitTone b j)

theorem enc_eq_cellsFrom (b : Byte) : enc b = cellsFrom b 0 8 := rfl

@[simp] theorem cellsFrom_zero (b : Byte) (i : Nat) : cellsFrom b i 0 = [] := rfl

theorem cellsFrom_succ (b : Byte) (i n : Nat) :
    cellsFrom b i (n + 1) = toneTable (bitTone b i) ++ cellsFrom b (i + 1) n := rfl

theorem length_cellsFrom_succ (b : Byte) (i n : Nat) :
    (cellsFrom b i (n + 1)).length = cellLen (bitTone b i) + (cellsFrom b (i + 1) n).length := by
  rw [cellsFrom_succ, List.length_append, toneTable_length]

/-- The rest of a byte from the start of cell `i`, by induction on the number of cells after it: each cell but the last
moves the bit selector alone, and the last one ends the byte. -/
theorem run_rest_of_byte {b : Byte} {i k : Nat} {s : State} (hp : s.regs.phase = .header ∨ s.regs.phase = .body)
    (hb : s.regs.haveByte = true) (hbyte : s.regs.byteReg = b) (hi : s.regs.bitIdx.val = i) (h0 : s.regs.sampIdx = 0)
    (hlen : i + (k + 1) = 8) (hready : Claims.ReadyFor (cellsFrom b i (k + 1)).length s) :
    ∃ u, run (cellsFrom b i (k + 1)).length s = .next u ∧ u.regs = endByte s.regs ∧
      u.history = s.history ++ (cellsFrom b i (k + 1)).map .push := by
  induction k generalizing s i with
  | zero =>
    have ht : tone s.regs = bitTone b i := by rw [tone_eq_bitTone, hbyte, hi]
    have hlast : lastBit s.regs = true := (lastBit_iff _).2 (by omega)
    rw [length_cellsFrom_succ, Nat.add_comm] at hready
    obtain ⟨u, hrun, hregs, hhist, -⟩ := run_cell hp hb ht h0 hready
    rw [endCell_end_byte hlast] at hregs
    exact ⟨u, by simpa [length_cellsFrom_succ] using hrun, hregs, by simpa [cellsFrom_succ] using hhist⟩
  | succ k ih =>
    have ht : tone s.regs = bitTone b i := by rw [tone_eq_bitTone, hbyte, hi]
    have hlast : lastBit s.regs = false := lastBit_eq_false (by omega)
    rw [length_cellsFrom_succ, Nat.add_comm] at hready
    obtain ⟨v, hrun, hregs, hhist, hnext⟩ := run_cell hp hb ht h0 hready
    rw [endCell_next_bit hlast] at hregs
    have hiv : v.regs.bitIdx.val = i + 1 := by rw [hregs, ← hi]; exact bitIdx_succ_val hlast
    obtain ⟨u, hrest, huregs, huhist⟩ :=
      ih (by rwa [hregs]) (by rwa [hregs]) (by rwa [hregs]) hiv (by rw [hregs]) (by omega) hnext
    refine ⟨u, ?_, ?_, ?_⟩
    · rw [length_cellsFrom_succ, run_add hrun, hrest]
    · rw [huregs, hregs]
      rfl
    · rw [huhist, hhist, cellsFrom_succ b i, List.map_append, List.append_assoc]

/-- Settles O46: from cell 0 the rest of the byte is the whole of `enc(b)`, and its end is the byte's. -/
theorem pendingByteIsPushedAsItsEightCells : Obligations.PendingByteIsPushedAsItsEightCells := by
  intro s hp hb hbit h0 hready
  refine ⟨by simp only [enc, toneTable_bitTone], ?_⟩
  rw [enc_eq_cellsFrom] at hready ⊢
  obtain ⟨u, hrun, hregs, hhist⟩ := run_rest_of_byte hp hb rfl (congrArg Fin.val hbit) h0 rfl hready
  exact ⟨u, hrun, hhist, by simp only [hregs, endByte_eq, hbit, h0]⟩

end Sys2Proof.Machine
end

section
/-! The leader generator: one clock edge of either leader, said once for every operation that nests around it, and the
run of steps that pushes a whole leader (42_leader_generator.md). -/

namespace Sys2Proof.Machine

/-! ## One clock edge of a leader -/

theorem lastLead_eq_false {r : Regs} (h : r.lcnt.val < 11024) : lastLead r = false :=
  Bool.eq_false_iff.2 fun hl => h.ne ((lastLead_iff r).1 hl)

/-- An operation that a leader's phase selects has the leader's edge: it presents the silence value, and at the transfer
the two cases of `advanceLeader` are the two ways to go on (42_leader_generator.md R131). -/
theorem leaderEdge_of_selected {op : Instr} {ph : Phase} {after : Regs → Phase} (hlead : ph = .leader1 ∨ ph = .leader2)
    (hsel : ∀ s : State, s.regs.phase = ph → selected op s = true)
    (hafter : ∀ r : Regs, r.phase = ph → afterLeader r = after r) : Claims.LeaderEdge op ph after := by
  intro s hr hph
  have hp : s.regs.phase = .leader1 ∨ s.regs.phase = .leader2 := by rwa [hph]
  have hexec : exec op s = present (.ok Config.silence) advanceLeader s := by
    rw [exec_selected_eq_phase (hsel s hph), exec_leader_phase hr hp]
  have hpush (ho : s.pins.outReady = true) :
      exec op s = .next (s.transfer (.push Config.silence) (advanceLeader s.regs)) := by
    rw [hexec, present, if_pos (outXfer_of_leader hr hp ho)]
  obtain ⟨hin, hvalid, hdata⟩ := outputs_of_leader hr ((inLeader_iff _).2 hp)
  refine ⟨hin, hvalid, hdata, fun ho => ?_, fun ho hlt => ?_, fun ho hlast => ?_⟩
  · rw [hexec, present, if_neg (by simp [outXfer, ho])]
  · rw [hpush ho, advanceLeader_inside (lastLead_eq_false hlt)]
  · rw [hpush ho, advanceLeader_last ((lastLead_iff _).2 hlast), hafter _ hph]

theorem afterLeader_first {r : Regs} (hp : r.phase = .leader1) : afterLeader r = .header := by
  simp [afterLeader, hp]

theorem afterLeader_second {r : Regs} (hp : r.phase = .leader2) :
    afterLeader r = if r.eofSeen then .done else .body := by
  simp [afterLeader, hp]

/-- Settles O14: EMIT_LEADER is selected in its operand's phase, and each leader leads to its own successor. -/
theorem emitLeaderPushesOneSilenceSample : Obligations.EmitLeaderPushesOneSilenceSample :=
  ⟨leaderEdge_of_selected (.inl rfl) (fun s => (selected_leader_iff .first s).2) fun _ => afterLeader_first,
    leaderEdge_of_selected (.inr rfl) (fun s => (selected_leader_iff .second s).2) fun _ => afterLeader_second⟩

/-! ## A whole leader -/

/-- The step of a leader in which the sink takes the sample (42_leader_generator.md R131). -/
theorem step_in_leader {n : Nat} {s : State} (hp : s.regs.phase = .leader1 ∨ s.regs.phase = .leader2)
    (hready : Claims.ReadyFor (n + 1) s) :
    ∃ u, step s = .next u ∧ u.regs = advanceLeader s.regs ∧ u.history = s.history ++ [.push Config.silence] ∧
      Claims.ReadyFor n u := by
  obtain ⟨hr, ho⟩ := readyFor_now hready
  have hstep := step_of_transfer (.leader hr hp ho) (.inr (outXfer_of_leader hr hp ho))
    (by rcases hp with hp | hp <;> simp [hp])
  exact ⟨_, hstep, rfl, rfl, readyFor_tick hready⟩

/-- The rest of a leader, by induction on the number of samples after the present one: each step but the last counts,
and the last one clears the counter and leaves the phase. -/
theorem run_rest_of_leader {k : Nat} {s : State} (hp : s.regs.phase = .leader1 ∨ s.regs.phase = .leader2)
    (hlen : s.regs.lcnt.val + k = 11024) (hready : Claims.ReadyFor (k + 1) s) :
    ∃ u, run (k + 1) s = .next u ∧ u.regs = { s.regs with lcnt := 0, phase := afterLeader s.regs } ∧
      u.history = s.history ++ List.replicate (k + 1) (.push Config.silence) := by
  induction k generalizing s with
  | zero =>
    obtain ⟨u, hstep, hregs, hhist, -⟩ := step_in_leader hp hready
    rw [advanceLeader_last ((lastLead_iff _).2 hlen)] at hregs
    exact ⟨u, run_step hstep, hregs, hhist⟩
  | succ k ih =>
    obtain ⟨v, hstep, hregs, hhist, hnext⟩ := step_in_leader hp hready
    have hlast : lastLead s.regs = false := lastLead_eq_false (by omega)
    rw [advanceLeader_inside hlast] at hregs
    have hcount : v.regs.lcnt.val = s.regs.lcnt.val + 1 := by rw [hregs]; exact lcnt_succ_val hlast
    obtain ⟨u, hrun, huregs, huhist⟩ := ih (s := v) (by rwa [hregs]) (by omega) hnext
    refine ⟨u, (run_step hstep).trans hrun, ?_, ?_⟩
    · rw [huregs, hregs]
      rfl
    · rw [huhist, hhist, List.replicate_succ (n := k + 1)]
      simp

/-- Settles O47: from its first sample the rest of a leader is the whole of it. -/
theorem leaderPushesExactlyItsSamples : Obligations.LeaderPushesExactlyItsSamples := by
  intro s hp h0 hready
  obtain ⟨u, hrun, hregs, hhist⟩ := run_rest_of_leader (k := 11024) hp (by rw [h0]) hready
  have hzero : s.regs.lcnt = 0 := Fin.ext h0
  exact ⟨u, hrun, hhist, by simp [hregs, afterLeader, hzero]⟩

end Sys2Proof.Machine
end

section
/-! What is still to come in a run: the tokens left to pull and the samples left to push, from the registers and the
bytes not yet pulled. Every clock edge takes its transfer from their front (43_frame_sequencer.md). -/

namespace Sys2Proof.Machine

/-! ## What is left of the frame -/

/-- What is left of the pending byte's eight cells, from the present sample on. -/
def pendingSamples (r : Regs) : List Sample :=
  if r.haveByte then
    (toneTable (tone r)).drop r.sampIdx.val ++ cellsFrom r.byteReg (r.bitIdx.val + 1) (7 - r.bitIdx.val)
  else []

/-- What is left of the leader, from the present sample on. -/
def restOfLeader (r : Regs) : List Sample := List.replicate (11025 - r.lcnt.val) Config.silence

/-- How many of the bytes `y` not yet pulled belong to the header. -/
def headerBytesLeft (r : Regs) (y : List Byte) : Nat :=
  if r.syncFound then min y.length (18 - r.nameCnt.val) else headerLen y

/-- The samples of `k` header bytes, the second leader and the body. -/
def frameTail (k : Nat) (y : List Byte) : List Sample :=
  (y.take k).flatMap enc ++ leaderSamples ++ (y.drop k).flatMap enc

/-- The samples left to push when the bytes `y` are left to pull. -/
def samplesLeft (r : Regs) (y : List Byte) : List Sample :=
  match r.phase with
  | .leader1 => restOfLeader r ++ frameTail (headerLen y) y
  | .header => pendingSamples r ++ frameTail (headerBytesLeft r y) y
  | .leader2 => restOfLeader r ++ y.flatMap enc
  | .body => pendingSamples r ++ y.flatMap enc
  | .done => []

/-- The tokens left to pull when the bytes `y` are: also EOF, unless it has been seen. -/
def tokensLeft (r : Regs) (y : List Byte) : List Token := if r.eofSeen then [] else inputTokens y

/-- The run on `x` has the bytes `y` left to pull: what it has pulled and pushed and what is left are together the
input and its frame. -/
structure OnTrack (x y : List Byte) (s : State) : Prop where
  tokens : pulls s.history ++ tokensLeft s.regs y = inputTokens x
  samples : pushes s.history ++ samplesLeft s.regs y = encodeFrame x
  exhausted : s.regs.eofSeen = true → y = []

/-! ## The equations of `samplesLeft` -/

section
variable {r : Regs} (y : List Byte)

theorem samplesLeft_leader1 (hp : r.phase = .leader1) :
    samplesLeft r y = restOfLeader r ++ frameTail (headerLen y) y := by
  simp only [samplesLeft, hp]

theorem samplesLeft_header (hp : r.phase = .header) :
    samplesLeft r y = pendingSamples r ++ frameTail (headerBytesLeft r y) y := by
  simp only [samplesLeft, hp]

theorem samplesLeft_leader2 (hp : r.phase = .leader2) : samplesLeft r y = restOfLeader r ++ y.flatMap enc := by
  simp only [samplesLeft, hp]

theorem samplesLeft_body (hp : r.phase = .body) : samplesLeft r y = pendingSamples r ++ y.flatMap enc := by
  simp only [samplesLeft, hp]

theorem samplesLeft_done (hp : r.phase = .done) : samplesLeft r y = [] := by
  simp only [samplesLeft, hp]

end

theorem pendingSamples_none {r : Regs} (hb : r.haveByte = false) : pendingSamples r = [] := by
  simp [pendingSamples, hb]

/-- At the start of a leader the whole of it is left. -/
theorem restOfLeader_start {r : Regs} (h : r.lcnt.val = 0) : restOfLeader r = leaderSamples := by
  rw [restOfLeader, h]
  rfl

/-- A byte just loaded has all its samples left. -/
theorem pendingSamples_loaded {r : Regs} (hb : r.haveByte = true) (h0 : r.bitIdx = 0) (hs : r.sampIdx = 0) :
    pendingSamples r = enc r.byteReg := by
  rw [pendingSamples, if_pos hb, tone_eq_bitTone, h0, hs, enc_eq_cellsFrom]
  rfl

/-! ## The header's bytes -/

/-- The sync byte and the name record that follows it. -/
theorem headerLen_sync (y : List Byte) : headerLen (Config.syncByte :: y) = min y.length 18 + 1 := by
  have hsplit : headerLen (Config.syncByte :: y) = min (y.length + 1) 19 := rfl
  omega

/-- A preamble byte. -/
theorem headerLen_preamble {b : Byte} (hb : b ≠ Config.syncByte) (y : List Byte) :
    headerLen (b :: y) = headerLen y + 1 := by
  have hne : (b == Config.syncByte) = false := by simpa using hb
  simp only [headerLen, List.findIdx?_cons, hne]
  cases y.findIdx? (· == Config.syncByte) with
  | none => rfl
  | some p => simp; omega

theorem frameTail_zero (y : List Byte) : frameTail 0 y = leaderSamples ++ y.flatMap enc := rfl

theorem frameTail_nil (k : Nat) : frameTail k [] = leaderSamples := by simp [frameTail]

theorem frameTail_succ (k : Nat) (b : Byte) (y : List Byte) :
    frameTail (k + 1) (b :: y) = enc b ++ frameTail k y := by
  simp [frameTail]

theorem encodeFrame_eq (x : List Byte) : encodeFrame x = leaderSamples ++ frameTail (headerLen x) x := by
  simp [encodeFrame, frameTail]

theorem headerBytesLeft_full {r : Regs} (hf : hdrFull r = true) (y : List Byte) : headerBytesLeft r y = 0 := by
  obtain ⟨hs, hn⟩ := (hdrFull_iff r).1 hf
  simp [headerBytesLeft, hs, hn]

theorem headerBytesLeft_searching {r : Regs} (hs : r.syncFound = false) (y : List Byte) :
    headerBytesLeft r y = headerLen y := by
  simp [headerBytesLeft, hs]

/-! ## A push takes the first sample left -/

theorem restOfLeader_inside {r : Regs} (hl : lastLead r = false) :
    restOfLeader r = Config.silence :: restOfLeader (advanceLeader r) := by
  have hlt : r.lcnt.val < 11025 := r.lcnt.isLt
  have hlast : r.lcnt.val ≠ 11024 := (lastLead_iff r).not.1 (by simp [hl])
  have hcount : (advanceLeader r).lcnt.val = r.lcnt.val + 1 := by rw [advanceLeader_lcnt_val, if_neg hlast]
  rw [restOfLeader, restOfLeader, hcount, ← List.replicate_succ,
    show 11025 - r.lcnt.val = 11025 - (r.lcnt.val + 1) + 1 by omega]

theorem restOfLeader_last {r : Regs} (hl : lastLead r = true) : restOfLeader r = [Config.silence] := by
  rw [restOfLeader, (lastLead_iff r).1 hl]
  rfl

/-- A leader's sample is the first one left, and after the last of them the next phase's samples follow
(43_frame_sequencer.md R141, R147). -/
theorem samplesLeft_advanceLeader {r : Regs} {y : List Byte} (h : Invariants r)
    (hp : r.phase = .leader1 ∨ r.phase = .leader2) (hy : r.eofSeen = true → y = []) :
    samplesLeft r y = Config.silence :: samplesLeft (advanceLeader r) y := by
  have hb : r.haveByte = false := haveByte_of_not_data_phase h (by rcases hp with hp | hp <;> simp [inDataPhase, hp])
  cases hl : lastLead r with
  | false =>
    have hsame : (advanceLeader r).phase = r.phase := by rw [advanceLeader_inside hl]
    rcases hp with hp | hp
    · rw [samplesLeft_leader1 y hp, samplesLeft_leader1 y (hsame.trans hp), restOfLeader_inside hl, List.cons_append]
    · rw [samplesLeft_leader2 y hp, samplesLeft_leader2 y (hsame.trans hp), restOfLeader_inside hl, List.cons_append]
  | true =>
    have hafter : (advanceLeader r).phase = afterLeader r := by rw [advanceLeader_last hl]
    have hnone : pendingSamples (advanceLeader r) = [] := pendingSamples_none (by simpa using hb)
    rcases hp with hp | hp
    · obtain ⟨-, -, -, -, -, hLeader1, -⟩ := h
      obtain ⟨hs, -⟩ := hLeader1 hp
      rw [samplesLeft_leader1 y hp, restOfLeader_last hl, samplesLeft_header y (hafter.trans (afterLeader_first hp)),
        hnone, headerBytesLeft_searching (by simpa using hs)]
      rfl
    · rw [afterLeader_second hp] at hafter
      rw [samplesLeft_leader2 y hp, restOfLeader_last hl]
      cases he : r.eofSeen with
      | true =>
        rw [he] at hafter
        rw [hy he, samplesLeft_done [] hafter]
        rfl
      | false =>
        rw [he] at hafter
        rw [samplesLeft_body y hafter, hnone]
        rfl

/-- A cell's sample is the first one left of the pending byte, and the end of the byte leaves none
(40_tone_synthesizer.md R112, 41_bit_encoder.md R121, R122). -/
theorem pendingSamples_advanceCell {r : Regs} (hb : r.haveByte = true) (hc : r.sampIdx.val < cellLen (tone r)) :
    pendingSamples r =
      (toneTable (tone r))[r.sampIdx.val]'(by simpa using hc) :: pendingSamples (advanceCell (tone r) r) := by
  have hdrop := List.drop_eq_getElem_cons (l := toneTable (tone r)) (by simpa using hc)
  rw [pendingSamples, if_pos hb, hdrop, List.cons_append]
  congr 1
  cases hs : lastSamp (tone r) r with
  | false =>
    have hsamp := (sampIdx_succ_in_cell hc hs).1
    rw [advanceCell_inside hs, pendingSamples, if_pos hb, hsamp]
    rfl
  | true =>
    have hnil : (toneTable (tone r)).drop (r.sampIdx.val + 1) = [] := by
      rw [(lastSamp_iff _ r).1 hs, ← toneTable_length, List.drop_length]
    rw [hnil, List.nil_append]
    cases hlast : lastBit r with
    | true =>
      rw [advanceCell_end_byte hs hlast, (lastBit_iff r).1 hlast, pendingSamples_none rfl, cellsFrom_zero]
    | false =>
      have hbit := bitIdx_succ_val hlast
      have hne := (lastBit_iff r).not.1 (by simp [hlast])
      obtain ⟨k, hk⟩ : ∃ k, 7 - r.bitIdx.val = k + 1 := ⟨6 - r.bitIdx.val, by omega⟩
      rw [advanceCell_next_bit hs hlast, pendingSamples, if_pos hb, tone_eq_bitTone, hbit, hk, cellsFrom_succ,
        show 7 - (r.bitIdx.val + 1) = k by omega]
      rfl

/-- With a byte pending, the sample pushed is the first one left (43_frame_sequencer.md R146). -/
theorem samplesLeft_advanceCell {r : Regs} (y : List Byte) (h : Invariants r) (hb : r.haveByte = true)
    (hc : r.sampIdx.val < cellLen (tone r)) :
    samplesLeft r y =
      (toneTable (tone r))[r.sampIdx.val]'(by simpa using hc) :: samplesLeft (advanceCell (tone r) r) y := by
  obtain ⟨hp, hl, -⟩ := (invariants_pending_iff hb).1 h
  have hpend := pendingSamples_advanceCell hb hc
  by_cases hsame : (advanceCell (tone r) r).phase = r.phase
  · rcases hp with hp | hp
    · have hleft : headerBytesLeft (advanceCell (tone r) r) y = headerBytesLeft r y := by simp [headerBytesLeft]
      rw [samplesLeft_header y hp, samplesLeft_header y (hsame.trans hp), hpend, hleft, List.cons_append]
    · rw [samplesLeft_body y hp, samplesLeft_body y (hsame.trans hp), hpend, List.cons_append]
  · obtain ⟨hh, hafter, hbit, hs, hfull⟩ := advanceCell_leaves_header hsame
    have hend := advanceCell_end_byte hs ((lastBit_iff r).2 hbit)
    have hlead : restOfLeader (advanceCell (tone r) r) = leaderSamples := restOfLeader_start (by simpa using hl)
    rw [samplesLeft_header y hh, samplesLeft_leader2 y hafter, hpend, hend, pendingSamples_none rfl, ← hend, hlead,
      headerBytesLeft_full ((hdrFull_iff r).2 hfull), frameTail_zero]
    rfl

/-! ## A pull moves a byte from the input to the encoder, and loses no sample -/

/-- A byte loaded in the header moves its samples to the front, if the count of header bytes left goes down. -/
theorem samplesLeft_header_load {r r' : Regs} {b : Byte} {y : List Byte} (hp : r.phase = .header)
    (hb : r.haveByte = false) (hp' : r'.phase = .header) (hload : pendingSamples r' = enc b)
    (hcount : headerBytesLeft r (b :: y) = headerBytesLeft r' y + 1) : samplesLeft r (b :: y) = samplesLeft r' y := by
  rw [samplesLeft_header _ hp, samplesLeft_header _ hp', pendingSamples_none hb, hload, hcount, frameTail_succ]
  rfl

theorem headerBytesLeft_preamble {r : Regs} {b : Byte} (hs : r.syncFound = false) (hb : b ≠ Config.syncByte)
    (y : List Byte) : headerBytesLeft r (b :: y) = headerBytesLeft (loadByte b r) y + 1 := by
  rw [headerBytesLeft_searching hs, headerBytesLeft_searching (by exact hs), headerLen_preamble hb]

theorem headerBytesLeft_sync {r : Regs} (hs : r.syncFound = false) (hn : r.nameCnt.val = 0) (y : List Byte) :
    headerBytesLeft r (Config.syncByte :: y) =
      headerBytesLeft (setSyncFound (loadByte Config.syncByte r)) y + 1 := by
  rw [headerBytesLeft_searching hs, headerLen_sync]
  simp [headerBytesLeft, hn]

theorem headerBytesLeft_name {r : Regs} {b : Byte} (hs : r.syncFound = true) (hf : hdrFull r = false) (y : List Byte) :
    headerBytesLeft r (b :: y) = headerBytesLeft (countName (loadByte b r)) y + 1 := by
  have hne : r.nameCnt.val ≠ 18 := fun h18 => by simp [(hdrFull_iff r).2 ⟨hs, h18⟩] at hf
  have hcount := nameCnt_succ_val hne
  have hlt : r.nameCnt.val < 19 := r.nameCnt.isLt
  simp only [headerBytesLeft, countName_syncFound, loadByte_syncFound, hs, if_true, countName_nameCnt,
    loadByte_nameCnt, hcount, List.length_cons]
  omega

/-- A pulled byte's samples are the next ones left. -/
theorem Edge.samplesLeft_byte {s u : State} {b : Byte} {y : List Byte} (he : Edge s u) (h : Invariants s.regs)
    (hx : inXfer s = true) (heof : s.pins.inEof = false) (hdata : s.pins.inData = b) :
    samplesLeft s.regs (b :: y) = samplesLeft u.regs y := by
  obtain ⟨hr, hp, hb, -⟩ := (inXfer_iff s).1 hx
  obtain ⟨hbyte, hload, hbit, hsamp⟩ := he.loads_byte hx heof
  have hpend : pendingSamples u.regs = enc b := by rw [pendingSamples_loaded hload hbit hsamp, hbyte, hdata]
  subst hdata
  cases he with
  | load _ _ hn =>
    rcases hn with hbody | ⟨hh, hs, hd⟩
    · rw [samplesLeft_body _ hbody, samplesLeft_body _ (by exact hbody), pendingSamples_none hb, hpend]
      rfl
    · exact samplesLeft_header_load hh hb hh hpend (headerBytesLeft_preamble hs hd y)
  | sync _ _ hh hs hd =>
    obtain ⟨-, -, hNames⟩ := invariants_in_data_phase h hp
    refine samplesLeft_header_load hh hb hh hpend ?_
    rw [hd]
    exact headerBytesLeft_sync hs (hNames hs) y
  | name _ _ hh hs hf => exact samplesLeft_header_load hh hb hh hpend (headerBytesLeft_name hs hf y)
  | reset hr' => simp [hr] at hr'
  | wait _ hx' => simp [hx] at hx'
  | leader _ hl => rcases hp with hp | hp <;> simp [hp] at hl
  | sample _ _ hb' => simp [hb] at hb'
  | eof _ heof' => simp [heof] at heof'

/-- With no byte left, EOF leaves the second leader to push in the header and nothing in the body
(43_frame_sequencer.md R145, R149). -/
theorem samplesLeft_endInput {r : Regs} (h : Invariants r) (hp : r.phase = .header ∨ r.phase = .body)
    (hb : r.haveByte = false) : samplesLeft r [] = samplesLeft (endInput r) [] := by
  obtain ⟨hl, -⟩ := invariants_in_data_phase h hp
  rcases hp with hp | hp
  · have hlead : restOfLeader (endInput r) = leaderSamples := restOfLeader_start hl
    rw [samplesLeft_header _ hp, samplesLeft_leader2 _ (by simp [hp]), pendingSamples_none hb, frameTail_nil, hlead]
    simp
  · rw [samplesLeft_body _ hp, samplesLeft_done _ (by simp [hp]), pendingSamples_none hb]
    rfl

end Sys2Proof.Machine
end

section
/-! A run on an input presented in order stays on the track of its frame (43_frame_sequencer.md R155, 44_top_level.md
R175). -/

namespace Sys2Proof.Machine

/-! ## The tokens left -/

@[simp] theorem tokensLeft_of_eofSeen {r : Regs} (he : r.eofSeen = true) (y : List Byte) : tokensLeft r y = [] := by
  simp [tokensLeft, he]

theorem tokensLeft_nil {r : Regs} (he : r.eofSeen = false) : tokensLeft r [] = [.eof] := by
  simp [tokensLeft, he, inputTokens]

theorem tokensLeft_cons {r : Regs} (he : r.eofSeen = false) (b : Byte) (y : List Byte) :
    tokensLeft r (b :: y) = .byte b :: tokensLeft r y := by
  simp [tokensLeft, he, inputTokens]

theorem bytes_of_next_byte {r : Regs} {b : Byte} {y : List Byte} (h : (tokensLeft r y).head? = some (.byte b)) :
    ∃ y', y = b :: y' := by
  cases he : r.eofSeen with
  | true => simp [he] at h
  | false =>
    cases y with
    | nil => simp [tokensLeft_nil he] at h
    | cons c y' =>
      rw [tokensLeft_cons he] at h
      cases h
      exact ⟨y', rfl⟩

theorem bytes_of_next_eof {r : Regs} {y : List Byte} (h : (tokensLeft r y).head? = some .eof) : y = [] := by
  cases he : r.eofSeen with
  | true => simp [he] at h
  | false =>
    cases y with
    | nil => rfl
    | cons c y' => simp [tokensLeft_cons he] at h

/-- Until EOF has been seen a token is left. -/
theorem exists_next_token {r : Regs} (he : r.eofSeen = false) (y : List Byte) :
    ∃ t, (tokensLeft r y).head? = some t := by
  cases y with
  | nil => exact ⟨_, by rw [tokensLeft_nil he]; rfl⟩
  | cons b y => exact ⟨_, by rw [tokensLeft_cons he]; rfl⟩

theorem tokensLeft_congr {r r' : Regs} (h : r'.eofSeen = r.eofSeen) (y : List Byte) :
    tokensLeft r' y = tokensLeft r y := by
  simp only [tokensLeft, h]

/-- The next token of the input is the first one left. -/
theorem OnTrack.next_token {x y : List Byte} {s : State} (h : OnTrack x y s) :
    (inputTokens x)[(pulls s.history).length]? = (tokensLeft s.regs y).head? := by
  rw [← h.tokens, List.getElem?_append_right (Nat.le_refl _), Nat.sub_self, List.head?_eq_getElem?]

/-! ## A clock edge keeps the track -/

theorem onTrack_reset (x : List Byte) (p : Pins) : OnTrack x x { State.reset with pins := p } where
  tokens := rfl
  samples := (encodeFrame_eq x).symm
  exhausted := nofun

/-- An edge that pushes the first sample left, and neither pulls nor sees EOF, keeps the bytes left. -/
theorem OnTrack.push {x y : List Byte} {s u : State} {v : Sample} (h : OnTrack x y s)
    (hhist : u.history = s.history ++ [.push v]) (heof : u.regs.eofSeen = s.regs.eofSeen)
    (hleft : samplesLeft s.regs y = v :: samplesLeft u.regs y) : OnTrack x y u where
  tokens := by simpa [hhist, tokensLeft_congr heof] using h.tokens
  samples := by simpa [hhist, hleft] using h.samples
  exhausted := by simpa [heof] using h.exhausted

/-- The pull of a byte takes it from the bytes left (43_frame_sequencer.md R142, R143, R144, R148). -/
theorem OnTrack.pull_byte {x y : List Byte} {s u : State} {b : Byte} (h : OnTrack x (b :: y) s)
    (hhist : u.history = s.history ++ [.pull (.byte b)]) (he : s.regs.eofSeen = false) (heof : u.regs.eofSeen = false)
    (hleft : samplesLeft s.regs (b :: y) = samplesLeft u.regs y) : OnTrack x y u where
  tokens := by simpa [hhist, tokensLeft_cons he, tokensLeft_congr (heof.trans he.symm)] using h.tokens
  samples := by simpa [hhist, hleft] using h.samples
  exhausted := by simp [heof]

/-- The pull of EOF ends the input (43_frame_sequencer.md R145, R149). -/
theorem OnTrack.pull_eof {x : List Byte} {s u : State} (h : OnTrack x [] s)
    (hhist : u.history = s.history ++ [.pull .eof]) (he : s.regs.eofSeen = false) (heof : u.regs.eofSeen = true)
    (hleft : samplesLeft s.regs [] = samplesLeft u.regs []) : OnTrack x [] u where
  tokens := by simpa [hhist, heof, tokensLeft_nil he] using h.tokens
  samples := by simpa [hhist, hleft] using h.samples
  exhausted := fun _ => rfl

/-- A pulled byte does not touch `eof_seen`. -/
theorem Edge.eofSeen_byte {s u : State} (he : Edge s u) (hx : inXfer s = true) (heof : s.pins.inEof = false)
    (h : s.regs.eofSeen = false) : u.regs.eofSeen = false := by
  obtain ⟨hr, -⟩ := (inXfer_iff s).1 hx
  cases he with
  | reset hr' => simp [hr] at hr'
  | eof _ heof' => simp [heof] at heof'
  | _ => simpa using h

/-- With a byte pulled, the next token left on the port keeps the track. -/
theorem Edge.onTrack_byte {x y : List Byte} {s u : State} (he : Edge s u) (h : Invariants s.regs) (ht : OnTrack x y s)
    (hx : inXfer s = true) (heof : s.pins.inEof = false)
    (hnext : (tokensLeft s.regs y).head? = some (portToken s.pins)) : ∃ y', OnTrack x y' u := by
  obtain ⟨-, hp, -⟩ := (inXfer_iff s).1 hx
  obtain ⟨-, hseen, -⟩ := invariants_in_data_phase h hp
  have htoken : portToken s.pins = .byte s.pins.inData := by simp [portToken_eq, heof]
  obtain ⟨y, rfl⟩ := bytes_of_next_byte (hnext.trans (congrArg some htoken))
  refine ⟨y, ht.pull_byte ?_ hseen (he.eofSeen_byte hx heof hseen) (he.samplesLeft_byte h hx heof rfl)⟩
  rw [he.history_of_inXfer hx, htoken]

/-- Every clock edge without reset keeps the track, if a token it pulls is the next one left. -/
theorem Edge.onTrack {x y : List Byte} {s u : State} (he : Edge s u) (hr : s.pins.rst = false) (h : Invariants s.regs)
    (ht : OnTrack x y s)
    (hnext : inXfer s = true → (tokensLeft s.regs y).head? = some (portToken s.pins)) : ∃ y', OnTrack x y' u := by
  cases he with
  | reset hr' => simp [hr] at hr'
  | wait => exact ⟨y, ht⟩
  | leader _ hp => exact ⟨y, ht.push rfl (by simp) (samplesLeft_advanceLeader h hp ht.exhausted)⟩
  | sample _ _ hb _ hc => exact ⟨y, ht.push rfl (by simp) (samplesLeft_advanceCell y h hb hc)⟩
  | load hx heof hn => exact (Edge.load hx heof hn).onTrack_byte h ht hx heof (hnext hx)
  | sync hx heof hp hs hd => exact (Edge.sync hx heof hp hs hd).onTrack_byte h ht hx heof (hnext hx)
  | name hx heof hp hs hf => exact (Edge.name hx heof hp hs hf).onTrack_byte h ht hx heof (hnext hx)
  | eof hx heof =>
    obtain ⟨-, hp, hb, -⟩ := (inXfer_iff s).1 hx
    obtain ⟨-, hseen, -⟩ := invariants_in_data_phase h hp
    obtain rfl := bytes_of_next_eof ((hnext hx).trans (by rw [portToken_eq, if_pos heof]))
    exact ⟨[], ht.pull_eof rfl hseen rfl (samplesLeft_endInput h hp hb)⟩

/-! ## The driven run -/

/-- The next cycle of a driven run is a clock edge away. -/
theorem exists_drive_edge (env : Nat → Pins) (n : Nat) :
    ∃ u, Edge (drive env n) u ∧ drive env (n + 1) = { tick u with pins := env (n + 1) } := by
  obtain ⟨u, he, hstep⟩ := exists_step (drive_invariants env n)
  exact ⟨u, he, drive_succ hstep⟩

section
variable {x : List Byte} {env : Nat → Pins} (hr : NoReset env) (hin : PresentsInOrder env x)
include hr hin

/-- Every cycle of a run without reset on an input presented in order is on the track of the input's frame. -/
theorem drive_onTrack (n : Nat) : ∃ y, OnTrack x y (drive env n) := by
  induction n with
  | zero => exact ⟨x, onTrack_reset x (env 0)⟩
  | succ n ih =>
    obtain ⟨y, ht⟩ := ih
    obtain ⟨u, he, hdrive⟩ := exists_drive_edge env n
    obtain ⟨y', ht'⟩ := he.onTrack (by rw [drive_pins]; exact hr n) (drive_invariants env n) ht fun hx => by
      obtain ⟨-, hp, -, hvalid⟩ := (inXfer_iff _).1 hx
      obtain ⟨-, hseen, -⟩ := invariants_in_data_phase (drive_invariants env n) hp
      obtain ⟨t, hhead⟩ := exists_next_token hseen y
      have htoken := hin n t (by rwa [drive_pins] at hvalid) (ht.next_token.trans hhead)
      rw [hhead, drive_pins, htoken]
    rw [hdrive]
    exact ⟨y', ht'.tokens, ht'.samples, ht'.exhausted⟩

end

/-- In DONE nothing is left (43_frame_sequencer.md R155). -/
theorem OnTrack.complete {x y : List Byte} {s : State} (ht : OnTrack x y s) (h : Invariants s.regs)
    (hp : s.regs.phase = .done) : pulls s.history = inputTokens x ∧ pushes s.history = encodeFrame x := by
  obtain ⟨-, -, -, -, -, -, -, -, hDone, -⟩ := h
  have htokens := ht.tokens
  have hsamples := ht.samples
  rw [tokensLeft_of_eofSeen (hDone hp).1, List.append_nil] at htokens
  rw [samplesLeft_done y hp, List.append_nil] at hsamples
  exact ⟨htokens, hsamples⟩

/-- Settles O51: every cycle of the run is on the track of the frame, so what it has transferred is the start of what it
is to transfer, and all of it when nothing is left. -/
theorem everyRunPushesTheStartOfItsFrame : Obligations.EveryRunPushesTheStartOfItsFrame := by
  intro x env hr hin n
  obtain ⟨y, ht⟩ := drive_onTrack hr hin n
  exact ⟨⟨_, ht.tokens⟩, ⟨_, ht.samples⟩, ht.complete (drive_invariants env n)⟩

end Sys2Proof.Machine
end

section
/-! The frame sequencer's operations: what each phase and each token operation does in one clock edge
(43_frame_sequencer.md). -/

namespace Sys2Proof.Machine

/-! ## The leaders and the cells of a data phase -/

/-- Settles O15: PH_LEADER1 is selected in LEADER1, and the first leader leads to HEADER. -/
theorem phLeader1PushesTheFirstLeader : Obligations.PhLeader1PushesTheFirstLeader :=
  leaderEdge_of_selected (.inl rfl) (fun s => (selected_phase_iff .leader1 s).2) fun _ => afterLeader_first

/-- Settles O16: PH_LEADER2 is selected in LEADER2, and the second leader leads to DONE or to BODY. -/
theorem phLeader2PushesTheSecondLeader : Obligations.PhLeader2PushesTheSecondLeader :=
  leaderEdge_of_selected (.inr rfl) (fun s => (selected_phase_iff .leader2 s).2) fun _ => afterLeader_second

/-- A data phase's operation has the edge of the pending byte's cell (43_frame_sequencer.md R154). -/
theorem dataPhase_cellEdge {p : Phase} (hp : p = .header ∨ p = .body) (t : Tone) :
    Claims.CellEdge (fun _ => p.toInstr) [p] (t == .mark) (toneTable t) :=
  cellEdge_of_selected t (fun q hq => by rwa [List.mem_singleton.1 hq]) fun s hph _ _ =>
    (selected_phase_iff p s).2 (List.mem_singleton.1 hph)

/-! ## Waiting for a token -/

theorem dataPhase_waitsForToken {p : Phase} (hp : p = .header ∨ p = .body) : Claims.WaitsForToken p.toInstr p := by
  intro s hr hph hb hv
  have hdata : s.regs.phase = .header ∨ s.regs.phase = .body := by rwa [hph]
  refine ⟨(outputs_of_no_byte hr hdata hb).1, ?_⟩
  rw [exec_selected_eq_phase ((selected_phase_iff p s).2 hph), exec_no_byte hr hdata hb,
    awaitToken_wait (by simp [inXfer, hv])]

/-! ## Pulling a token -/

/-- Where a token on the port is `tok` to the frame sequencer in the phase `p`, the operation `op` is selected. -/
def SelectedByToken (op : Instr) (p : Phase) (tok : TokenOp) : Prop :=
  ∀ s : State, inXfer s = true → s.regs.phase = p → portOp s = tok → selected op s = true

theorem phase_selectedByToken (p : Phase) (tok : TokenOp) : SelectedByToken p.toInstr p tok :=
  fun s _ hp _ => (selected_phase_iff p s).2 hp

theorem token_selectedByToken (p : Phase) (tok : TokenOp) : SelectedByToken tok.toInstr p tok :=
  fun s hx _ hop => (selected_token_iff tok s).2 ⟨hx, hop⟩

theorem inXfer_of_tokenAt {s : State} {p : Phase} {eof : Bool} (h : Claims.TokenAt s p eof)
    (hp : p = .header ∨ p = .body) : inXfer s = true := by
  obtain ⟨hr, hph, hb, hv, -⟩ := h
  exact (inXfer_iff s).2 ⟨hr, by rwa [hph], hb, hv⟩

/-- The edge of a pull is that of every operation it selects. -/
theorem exec_pull {i : Instr} {s u : State} (hsel : selected i s = true) (hx : inXfer s = true) (he : Edge s u) :
    exec i s = .next u := by
  obtain ⟨-, hp, -⟩ := (inXfer_iff s).1 hx
  rw [exec_selected_eq_phase hsel,
    exec_phase_of_transfer he (.inl hx) (by rcases hp with hp | hp <;> simp [hp])]

section
variable {op : Byte → Instr}

theorem pullsPreambleByte_of_selected (hsel : ∀ d, SelectedByToken (op d) .header (.byte d)) :
    Claims.PullsPreambleByte op := by
  intro s htok hs hd
  have hx := inXfer_of_tokenAt htok (.inl rfl)
  obtain ⟨-, hph, -, -, heof⟩ := htok
  exact exec_pull (hsel _ s hx hph (portOp_eq_byte heof fun hsync => hd hsync.2)) hx
    (.load hx heof (.inr ⟨hph, hs, hd⟩))

theorem pullsNameByte_of_selected (hsel : ∀ d, SelectedByToken (op d) .header (.byte d)) :
    Claims.PullsNameByte op := by
  intro s htok hs hn
  have hx := inXfer_of_tokenAt htok (.inl rfl)
  obtain ⟨-, hph, -, -, heof⟩ := htok
  have hf : hdrFull s.regs = false := by simp [hdrFull, hn.ne]
  exact exec_pull (hsel _ s hx hph (portOp_eq_byte heof (by simp [searching, hs]))) hx (.name hx heof hph hs hf)

theorem pullsBodyByte_of_selected (hsel : ∀ d, SelectedByToken (op d) .body (.byte d)) : Claims.PullsBodyByte op := by
  intro s htok
  have hx := inXfer_of_tokenAt htok (.inr rfl)
  obtain ⟨-, hph, -, -, heof⟩ := htok
  exact exec_pull (hsel _ s hx hph (portOp_eq_byte heof (by simp [searching, hph]))) hx (.load hx heof (.inl hph))

end

theorem pullsSyncByte_of_selected {op : Instr} (hsel : SelectedByToken op .header .sync) : Claims.PullsSyncByte op := by
  intro s htok hs hd
  have hx := inXfer_of_tokenAt htok (.inl rfl)
  obtain ⟨-, hph, -, -, heof⟩ := htok
  have hop : portOp s = .sync := by simp [portOp_eq, heof, searching, hph, hs, hd]
  rw [exec_pull (hsel s hx hph hop) hx (.sync hx heof hph hs hd), hd]
  rfl

theorem pullsEof_of_selected {op : Instr} {p after : Phase} (hp : p = .header ∨ p = .body)
    (hafter : after = if p == .header then .leader2 else .done) (hsel : SelectedByToken op p .eof) :
    Claims.PullsEof op p after := by
  intro s htok
  have hx := inXfer_of_tokenAt htok hp
  obtain ⟨-, hph, -, -, heof⟩ := htok
  have hop : portOp s = .eof := by rw [portOp_eq, if_pos heof]
  rw [exec_pull (hsel s hx hph hop) hx (.eof hx heof), hafter, ← hph]
  rfl

/-- Settles O17: PH_HEADER is selected in the whole of HEADER, with a byte pending, without a token and at each pull. -/
theorem phHeaderPullsAndEncodes : Obligations.PhHeaderPullsAndEncodes :=
  have hsel : ∀ tok, SelectedByToken .phHeader .header tok := phase_selectedByToken .header
  ⟨dataPhase_cellEdge (.inl rfl) .mark, dataPhase_cellEdge (.inl rfl) .space, dataPhase_waitsForToken (.inl rfl),
    pullsPreambleByte_of_selected fun d => hsel (.byte d), pullsSyncByte_of_selected (hsel .sync),
    pullsNameByte_of_selected fun d => hsel (.byte d), pullsEof_of_selected (.inl rfl) rfl (hsel .eof)⟩

/-- Settles O18: PH_BODY is selected in the whole of BODY, with a byte pending, without a token and at each pull. -/
theorem phBodyPullsAndEncodes : Obligations.PhBodyPullsAndEncodes :=
  have hsel : ∀ tok, SelectedByToken .phBody .body tok := phase_selectedByToken .body
  ⟨dataPhase_cellEdge (.inr rfl) .mark, dataPhase_cellEdge (.inr rfl) .space, dataPhase_waitsForToken (.inr rfl),
    pullsBodyByte_of_selected fun d => hsel (.byte d), pullsEof_of_selected (.inr rfl) rfl (hsel .eof)⟩

/-- Settles O20: TOK_BYTE is selected by its own token in each of the three contexts. -/
theorem tokByteLoadsTheByte : Obligations.TokByteLoadsTheByte :=
  have hsel : ∀ p d, SelectedByToken (.tokByte d) p (.byte d) := fun p d => token_selectedByToken p (.byte d)
  ⟨pullsPreambleByte_of_selected (hsel .header), pullsNameByte_of_selected (hsel .header),
    pullsBodyByte_of_selected (hsel .body)⟩

/-- Settles O22: TOK_SYNC is selected by the sync byte in the search. -/
theorem tokSyncEndsThePreamble : Obligations.TokSyncEndsThePreamble :=
  pullsSyncByte_of_selected (token_selectedByToken .header .sync)

/-- Settles O23: TOK_EOF is selected by EOF in either data phase, whatever `in_data` is. -/
theorem tokEofEndsTheInput : Obligations.TokEofEndsTheInput :=
  ⟨pullsEof_of_selected (.inl rfl) rfl (token_selectedByToken .header .eof),
    pullsEof_of_selected (.inr rfl) rfl (token_selectedByToken .body .eof)⟩

/-! ## DONE -/

/-- DONE asks for nothing and shows itself (10_state.md R33, R36). -/
theorem outputs_of_done {s : State} (hr : s.pins.rst = false) (hp : s.regs.phase = .done) :
    inReady s = false ∧ done s = true :=
  ⟨by simp [inReady, inDataPhase, hp], by simp [done, hr, hp]⟩

/-- Settles O19: PH_DONE's edge waits, and under the invariants no byte is pending in DONE. -/
theorem phDoneChangesNothing : Obligations.PhDoneChangesNothing := by
  intro s hr hp
  obtain ⟨hin, hdone⟩ := outputs_of_done hr hp
  have hexec : exec .phDone s = .next s :=
    (exec_selected_eq_phase ((selected_phase_iff .done s).2 hp)).trans (exec_done_phase hr hp)
  refine ⟨hexec, hin, hdone, fun h => ?_⟩
  have hb := haveByte_of_not_data_phase h (by simp [inDataPhase, hp])
  simp [outValid, inLeader, hp, hb]

/-- One step of DONE waits, with the invariants or without. -/
theorem step_done {s : State} (hr : s.pins.rst = false) (hp : s.regs.phase = .done) : step s = .next (tick s) := by
  rw [step_eq, exec_done_phase hr hp]
  rfl

/-- Settles O42, by induction on the number of steps: each of them waits. -/
theorem doneLastsUntilReset : Obligations.DoneLastsUntilReset := by
  intro n
  induction n with
  | zero =>
    intro s hp hn
    obtain ⟨hin, hdone⟩ := outputs_of_done (hn s.pins (by simp)) hp
    exact ⟨s, run_zero s, rfl, rfl, hdone, hin⟩
  | succ n ih =>
    intro s hp hn
    rw [run_step (step_done (hn s.pins (by simp)) hp)]
    exact ih (tick s) hp (noResetComing_tick hn)

end Sys2Proof.Machine
end

section
/-! The length of an unstalled run: one cycle per transfer, until the frame is complete; and the run on the empty input
(43_frame_sequencer.md R152, 44_top_level.md R176). -/

namespace Sys2Proof.Machine

/-! ## The length of the record -/

/-- Every transfer is a pull or a push. -/
theorem length_history (h : List Event) : h.length = (pulls h).length + (pushes h).length := by
  induction h with
  | nil => rfl
  | cons e h ih =>
    rw [List.length_cons, ih, ← List.singleton_append, pulls_append, pushes_append]
    cases e with
    | pull t => simp only [pulls_pull, pushes_pull, List.length_append, List.length_cons, List.length_nil]; omega
    | push v => simp only [pulls_push, pushes_push, List.length_append, List.length_cons, List.length_nil]; omega

/-- The number of transfers of a whole run: the frame's samples, the input's bytes and EOF. -/
def transferCount (x : List Byte) : Nat := (encodeFrame x).length + x.length + 1

theorem length_inputTokens (x : List Byte) : (inputTokens x).length = x.length + 1 := by simp [inputTokens]

theorem OnTrack.length_history_le {x y : List Byte} {s : State} (ht : OnTrack x y s) :
    s.history.length ≤ transferCount x := by
  have htokens := congrArg List.length ht.tokens
  have hsamples := congrArg List.length ht.samples
  rw [List.length_append] at hsamples
  rw [List.length_append, length_inputTokens] at htokens
  rw [length_history, transferCount]
  omega

theorem OnTrack.length_history_done {x y : List Byte} {s : State} (ht : OnTrack x y s) (h : Invariants s.regs)
    (hp : s.regs.phase = .done) : s.history.length = transferCount x := by
  obtain ⟨htokens, hsamples⟩ := ht.complete h hp
  rw [length_history, htokens, hsamples, length_inputTokens, transferCount]
  omega

/-! ## The transfers of one cycle -/

/-- A clock edge makes at most one transfer. -/
theorem Edge.length_history_le {s u : State} (he : Edge s u) : u.history.length ≤ s.history.length + 1 := by
  cases he with
  | reset | wait => exact Nat.le_succ _
  | leader | sample | load | sync | name | eof => simp

theorem length_drive_history_le (env : Nat → Pins) (n : Nat) : (drive env n).history.length ≤ n := by
  induction n with
  | zero => exact Nat.le_refl 0
  | succ n ih =>
    obtain ⟨u, he, hdrive⟩ := exists_drive_edge env n
    rw [hdrive]
    exact he.length_history_le.trans (Nat.succ_le_succ ih)

/-- Before DONE the block asks for a token or presents a sample (10_state.md R39 I12). -/
theorem asks_or_presents {s : State} (h : Invariants s.regs) (hr : s.pins.rst = false) (hp : s.regs.phase ≠ .done) :
    inReady s = true ∨ outValid s = true := by
  have hone := exactly_one_output h hr
  have hdone : done s = false := by simp [done, hp]
  cases hi : inReady s with
  | true => exact .inl rfl
  | false =>
    rw [hi, hdone] at hone
    cases ho : outValid s with
    | true => exact .inr rfl
    | false => simp [ho] at hone

/-- Before DONE a ready environment makes every clock edge a transfer. -/
theorem Edge.length_history_eq {s u : State} (he : Edge s u) (h : Invariants s.regs) (hr : s.pins.rst = false)
    (hp : s.regs.phase ≠ .done) (hsink : s.pins.outReady = true)
    (hsource : inReady s = true → s.pins.inValid = true) :
    u.history.length = s.history.length + 1 := by
  rcases asks_or_presents h hr hp with hi | hv
  · rw [he.history_of_inXfer (by simp [inXfer, hi, hsource hi])]
    simp
  · obtain ⟨v, -, hhist⟩ := he.history_of_outXfer h (by simp [outXfer, hv, hsink])
    simp [hhist]

/-- Without reset DONE lasts (43_frame_sequencer.md R150). -/
theorem drive_done_succ {env : Nat → Pins} (hr : NoReset env) {n : Nat} (hp : (drive env n).regs.phase = .done) :
    (drive env (n + 1)).regs.phase = .done := by
  rw [drive_succ (step_done (by rw [drive_pins]; exact hr n) hp)]
  exact hp

/-! ## An unstalled run -/

section
variable {env : Nat → Pins} (hr : NoReset env) (hsink : ∀ n, (env n).outReady = true)
  (hsource : ∀ n, inReady (drive env n) = true → (env n).inValid = true)
include hr hsink hsource

theorem unstalled_transfer {n : Nat} (hp : (drive env n).regs.phase ≠ .done) :
    (drive env (n + 1)).history.length = (drive env n).history.length + 1 := by
  obtain ⟨u, he, hdrive⟩ := exists_drive_edge env n
  rw [hdrive]
  exact he.length_history_eq (drive_invariants env n) (by rw [drive_pins]; exact hr n) hp
    (by rw [drive_pins]; exact hsink n) (by rw [drive_pins]; exact hsource n)

/-- Before DONE an unstalled run has made one transfer in every cycle. -/
theorem unstalled_history {n : Nat} (hp : (drive env n).regs.phase ≠ .done) : (drive env n).history.length = n := by
  induction n with
  | zero => rfl
  | succ n ih =>
    have hbefore : (drive env n).regs.phase ≠ .done := fun hd => hp (drive_done_succ hr hd)
    rw [unstalled_transfer hr hsink hsource hbefore, ih hbefore]

/-- An unstalled run is in DONE from the cycle on in which the frame's transfers are all made: before DONE the number of
transfers is the cycle's, and it is never more than the frame's (44_top_level.md R176). -/
theorem unstalled_done_iff {x : List Byte} (hin : PresentsInOrder env x) (n : Nat) :
    (drive env n).regs.phase = .done ↔ transferCount x ≤ n := by
  constructor
  · intro hp
    obtain ⟨y, ht⟩ := drive_onTrack hr hin n
    rw [← ht.length_history_done (drive_invariants env n) hp]
    exact length_drive_history_le env n
  · intro hle
    by_contra hp
    obtain ⟨y, ht⟩ := drive_onTrack hr hin (n + 1)
    have hmade : (drive env (n + 1)).history.length = n + 1 := by
      rw [unstalled_transfer hr hsink hsource hp, unstalled_history hr hsink hsource hp]
    have hmost := ht.length_history_le
    omega

end

/-! ## The empty input -/

theorem encodeFrame_nil : encodeFrame [] = List.replicate 22050 Config.silence := by
  rw [encodeFrame_eq, frameTail_nil]
  exact List.replicate_append_replicate

theorem transferCount_nil : transferCount [] = 22051 := by
  rw [transferCount, encodeFrame_nil, List.length_replicate, List.length_nil]

/-- A source that presents nothing but EOF presents the empty input in order. -/
theorem presentsInOrder_nil {env : Nat → Pins} (heof : ∀ n, (env n).inEof = true) : PresentsInOrder env [] := by
  intro n t _ ht
  have hmem : t ∈ inputTokens [] := List.mem_of_getElem? ht
  rw [portToken_eq, if_pos (heof n), List.mem_singleton.1 hmem]

/-- Settles O56: the unstalled run on the empty input is in DONE once the two leaders and EOF are transferred, and there
it is complete. -/
theorem emptyInputGivesTwoLeaders : Obligations.EmptyInputGivesTwoLeaders := by
  refine ⟨encodeFrame_nil, fun env hr hports => ?_⟩
  have hin := presentsInOrder_nil fun n => (hports n).2.2
  have hdone := unstalled_done_iff hr (fun n => (hports n).1) (fun n _ => (hports n).2.1) hin
  rw [transferCount_nil] at hdone
  have hlast : (drive env 22051).regs.phase = .done := (hdone 22051).2 (Nat.le_refl _)
  obtain ⟨-, -, hcomplete⟩ := everyRunPushesTheStartOfItsFrame [] env hr hin 22051
  obtain ⟨hpulls, hpushes⟩ := hcomplete hlast
  exact ⟨hlast, fun hp => absurd ((hdone 22050).1 hp) (by decide), hpushes.trans encodeFrame_nil, hpulls⟩

end Sys2Proof.Machine
end

section
/-! The model's clock edge is the flat step function of 44_top_level.md R171. -/

namespace Sys2Proof.Machine

/-! ## The flat step function, one equation per kind of cycle -/

/-- R171's `Step` takes the registers `r` and the levels `p` on the ports to the registers `r'`, with the event `e`. -/
def ReferenceEdge (r : Regs) (p : Pins) (r' : Regs) (e : Option Event) : Prop :=
  referenceStep r p = r' ∧ referenceEvent r p = e

/-- The registers after the pull of a token (43_frame_sequencer.md R142 to R145, R148, R149). -/
def takeToken (r : Regs) : Token → Regs
  | .eof => endInput r
  | .byte b =>
    if r.phase = .header then
      if r.syncFound then countName (loadByte b r)
      else if b = Config.syncByte then setSyncFound (loadByte b r)
      else loadByte b r
    else loadByte b r

theorem reference_reset {r : Regs} {p : Pins} (hr : p.rst = true) : ReferenceEdge r p Regs.reset none :=
  ⟨by rw [referenceStep, if_pos hr], by rw [referenceEvent, if_pos hr]⟩

/-- Without a transfer nothing changes and nothing is recorded. -/
theorem reference_wait {s : State} (hr : s.pins.rst = false) (hi : inXfer s = false)
    (ho : s.regs.phase = .done ∨ outXfer s = false) : ReferenceEdge s.regs s.pins s.regs none := by
  have leader (hp : s.regs.phase = .leader1 ∨ s.regs.phase = .leader2) : ReferenceEdge s.regs s.pins s.regs none := by
    have hready : s.pins.outReady = false := by
      rcases hp with hp | hp <;> simpa [outXfer, outValid, inLeader, hr, hp] using ho
    rcases hp with hp | hp <;> simp [ReferenceEdge, referenceStep, referenceEvent, hr, hp, hready]
  have data (hp : s.regs.phase = .header ∨ s.regs.phase = .body) : ReferenceEdge s.regs s.pins s.regs none := by
    cases hb : s.regs.haveByte with
    | true =>
      have hready : s.pins.outReady = false := by
        rcases hp with hp | hp <;> simpa [outXfer, outValid, inLeader, hr, hp, hb] using ho
      rcases hp with hp | hp <;> simp [ReferenceEdge, referenceStep, referenceEvent, hr, hp, hb, hready]
    | false =>
      have hvalid : s.pins.inValid = false := by
        rcases hp with hp | hp <;> simpa [inXfer, inReady, inDataPhase, hr, hp, hb] using hi
      rcases hp with hp | hp <;> simp [ReferenceEdge, referenceStep, referenceEvent, hr, hp, hb, hvalid]
  cases hp : s.regs.phase with
  | leader1 => exact leader (.inl hp)
  | header => exact data (.inl hp)
  | leader2 => exact leader (.inr hp)
  | body => exact data (.inr hp)
  | done => simp [ReferenceEdge, referenceStep, referenceEvent, hr, hp]

/-- `last_samp` as R171 writes it, with the cell's length by the selected bit. -/
theorem lastSamp_tone_iff (r : Regs) :
    lastSamp (tone r) r = true ↔ r.sampIdx.val = (if r.byteReg[r.bitIdx.val] then 5 else 9) - 1 := by
  simp [lastSamp, tone_eq_bitTone, cellLen_bitTone]

section
variable {r : Regs} {p : Pins} (hr : p.rst = false)
include hr

/-- 42_leader_generator.md R131, 43_frame_sequencer.md R141, R147. -/
theorem reference_leader (hp : r.phase = .leader1 ∨ r.phase = .leader2) (ho : p.outReady = true) :
    ReferenceEdge r p (advanceLeader r) (some (.push Config.silence)) := by
  refine ⟨?_, by rcases hp with hp | hp <;> simp [referenceEvent, hr, hp, ho]⟩
  cases hl : lastLead r with
  | false =>
    have hcount : r.lcnt.val ≠ 11024 := (lastLead_iff r).not.1 (by simp [hl])
    rw [advanceLeader_inside hl]
    rcases hp with hp | hp <;> simp [referenceStep, hr, hp, ho, hcount]
  | true =>
    have hcount := (lastLead_iff r).1 hl
    rw [advanceLeader_last hl, afterLeader]
    rcases hp with hp | hp
    · simp [referenceStep, hr, hp, ho, hcount]
    · cases he : r.eofSeen <;> simp [referenceStep, hr, hp, ho, hcount, he]

/-- 40_tone_synthesizer.md R112, 41_bit_encoder.md R121, R122, 43_frame_sequencer.md R146. -/
theorem referenceStep_pending (hp : r.phase = .header ∨ r.phase = .body) (hb : r.haveByte = true)
    (ho : p.outReady = true) : referenceStep r p = advanceCell (tone r) r := by
  cases hs : lastSamp (tone r) r with
  | false =>
    have hsamp := (lastSamp_tone_iff r).not.1 (by simp [hs])
    rw [advanceCell_inside hs]
    rcases hp with hp | hp <;> simp [referenceStep, hr, hp, hb, ho, hsamp]
  | true =>
    have hsamp := (lastSamp_tone_iff r).1 hs
    cases hl : lastBit r with
    | false =>
      have hbit : r.bitIdx.val ≠ 7 := (lastBit_iff r).not.1 (by simp [hl])
      rw [advanceCell_next_bit hs hl]
      rcases hp with hp | hp <;> simp [referenceStep, hr, hp, hb, ho, hsamp, hbit]
    | true =>
      have hbit := (lastBit_iff r).1 hl
      rw [advanceCell_end_byte hs hl, endByte_eq]
      rcases hp with hp | hp
      · by_cases hf : r.syncFound = true ∧ r.nameCnt.val = 18 <;>
          simp [referenceStep, hr, hp, hb, ho, hsamp, hbit, hf]
      · simp [referenceStep, hr, hp, hb, ho, hsamp, hbit]

/-- With a byte pending the sample pushed is the selected bit's. -/
theorem reference_pending (hp : r.phase = .header ∨ r.phase = .body) (hb : r.haveByte = true)
    (ho : p.outReady = true) (hc : r.sampIdx.val < cellLen (tone r)) :
    ReferenceEdge r p (advanceCell (tone r) r)
      (some (.push ((toneTable (tone r))[r.sampIdx.val]'(by simpa using hc)))) := by
  refine ⟨referenceStep_pending hr hp hb ho, ?_⟩
  have hsample : (toneTable (bitTone r.byteReg r.bitIdx.val))[r.sampIdx.val]? =
      some ((toneTable (tone r))[r.sampIdx.val]'(by simpa using hc)) := by
    rw [← tone_eq_bitTone]
    exact List.getElem?_eq_getElem _
  rcases hp with hp | hp <;> simp [referenceEvent, hr, hp, hb, ho, hsample]

/-- 20_memory.md R58. -/
theorem reference_pull (hp : r.phase = .header ∨ r.phase = .body) (hb : r.haveByte = false)
    (hv : p.inValid = true) :
    ReferenceEdge r p (takeToken r (portToken p)) (some (.pull (portToken p))) := by
  have hstep : referenceStep r p = takeToken r (portToken p) := by
    rw [portToken_eq]
    cases he : p.inEof with
    | true => rcases hp with hp | hp <;> simp [referenceStep, hr, hp, hb, hv, he, takeToken, endInput, setEofSeen]
    | false =>
      rcases hp with hp | hp
      · simp [referenceStep, hr, hp, hb, hv, he, takeToken, loadByte, setHaveByte, countName, setSyncFound]
      · simp [referenceStep, hr, hp, hb, hv, he, takeToken, loadByte, setHaveByte]
  refine ⟨hstep, ?_⟩
  rw [portToken_eq]
  rcases hp with hp | hp <;> simp [referenceEvent, hr, hp, hb, hv]

end

/-! ## Every clock edge is the flat step function's -/

/-- At an input transfer the edge takes the token on the port into the registers. -/
theorem Edge.regs_of_inXfer {s u : State} (he : Edge s u) (hx : inXfer s = true) :
    u.regs = takeToken s.regs (portToken s.pins) := by
  obtain ⟨hr, hp, hb, -⟩ := (inXfer_iff s).1 hx
  rw [portToken_eq]
  cases he with
  | reset hr' => simp [hr] at hr'
  | wait _ hx' => simp [hx] at hx'
  | leader _ hl => rcases hp with hp | hp <;> simp [hp] at hl
  | sample _ _ hb' => simp [hb] at hb'
  | load _ heof hn =>
    rcases hn with hbody | ⟨hh, hs, hd⟩
    · simp [takeToken, heof, hbody]
    · simp only [takeToken, heof, hh, hs, if_neg hd, if_true, if_false, Bool.false_eq_true, transfer_regs]
  | sync _ heof hh hs hd => simp [takeToken, heof, hh, hs, hd]
  | name _ heof hh hs => simp [takeToken, heof, hh, hs]
  | eof _ heof => simp [takeToken, heof]

/-- The cases of a clock edge are the arms of R171's `Step`. -/
theorem Edge.exists_reference {s u : State} (he : Edge s u) :
    ∃ e, ReferenceEdge s.regs s.pins u.regs e ∧ u.history = s.history ++ e.toList := by
  cases hx : inXfer s with
  | true =>
    obtain ⟨hr, hp, hb, hv⟩ := (inXfer_iff s).1 hx
    exact ⟨some _, he.regs_of_inXfer hx ▸ reference_pull hr hp hb hv, he.history_of_inXfer hx⟩
  | false =>
    cases he with
    | reset hr => exact ⟨none, reference_reset hr, (List.append_nil _).symm⟩
    | wait hr _ ho => exact ⟨none, reference_wait hr hx ho, (List.append_nil _).symm⟩
    | leader hr hp ho => exact ⟨_, reference_leader hr hp ho, rfl⟩
    | sample hr hp hb ho hc => exact ⟨_, reference_pending hr hp hb ho hc, rfl⟩
    | load hx' | sync hx' | name hx' | eof hx' => simp [hx] at hx'

theorem Edge.reference {s u : State} (he : Edge s u) :
    u.regs = referenceStep s.regs s.pins ∧ u.history = s.history ++ (referenceEvent s.regs s.pins).toList := by
  obtain ⟨e, ⟨hregs, rfl⟩, hhist⟩ := he.exists_reference
  exact ⟨hregs.symm, hhist⟩

theorem Edge.cycle_eq {s u : State} (he : Edge s u) : u.cycle = s.cycle := by cases he <;> rfl

/-- Settles O32: under the invariants every step goes on by a clock edge, and the cases of an edge are the arms of the
flat step function. -/
theorem stepIsTheSpecsStep : Obligations.StepIsTheSpecsStep := by
  intro s h
  obtain ⟨u, he, hstep⟩ := exists_step h
  obtain ⟨hregs, hhist⟩ := he.reference
  have hdisjoint : ¬(inXfer s = true ∧ outXfer s = true) := fun ⟨hi, ho⟩ => by
    simp [inXfer_of_outValid (outValid_of_outXfer ho)] at hi
  have hstill (hr : s.pins.rst = false) (hi : inXfer s = false) (ho : outXfer s = false) :
      referenceStep s.regs s.pins = s.regs := (reference_wait hr hi (.inr ho)).1
  refine ⟨inXfer_iff s, outXfer_iff s, hdisjoint, hstill, tick u, hstep, hregs, hhist, ?_, ?_, ?_⟩
  · rw [tick_pins, he.coming_eq]
  · rw [tick_coming, he.coming_eq]
  · rw [tick_cycle, he.cycle_eq]

end Sys2Proof.Machine
end

section
/-! The transfers of a run without reset are those of one sequence, made of the input's bytes alone (44_top_level.md
R173). -/

namespace Sys2Proof.Machine

/-! ## The sequence of transfers -/

/-- The levels of an environment that waits for nothing: the sink is ready, and the token on the port is the next one of
`x` after the transfers `h`. -/
def offered (x : List Byte) (h : List Event) : Pins where
  rst := false
  inValid := true
  inEof := (inputTokens x)[(pulls h).length]? == some .eof
  inData :=
    match (inputTokens x)[(pulls h).length]? with
    | some (.byte b) => b
    | _ => 0x00
  outReady := true

theorem portToken_offered {x : List Byte} {h : List Event} {t : Token}
    (ht : (inputTokens x)[(pulls h).length]? = some t) : portToken (offered x h) = t := by
  cases t <;> simp [portToken_eq, offered, ht]

/-- One transfer on the input `x`, from the registers and the transfers made before. -/
def nextTransfer (x : List Byte) (c : Regs × List Event) : Regs × List Event :=
  (referenceStep c.1 (offered x c.2), c.2 ++ (referenceEvent c.1 (offered x c.2)).toList)

/-- The registers and the record after the first `k` transfers on the input `x`. -/
def afterTransfers (x : List Byte) (k : Nat) : Regs × List Event := (nextTransfer x)^[k] (Regs.reset, [])

theorem afterTransfers_succ (x : List Byte) (k : Nat) :
    afterTransfers x (k + 1) = nextTransfer x (afterTransfers x k) :=
  Function.iterate_succ_apply' _ _ _

theorem afterTransfers_mono (x : List Byte) {k l : Nat} (h : k ≤ l) :
    (afterTransfers x k).2 <+: (afterTransfers x l).2 := by
  induction l, h using Nat.le_induction with
  | base => exact List.prefix_rfl
  | succ l _ ih =>
    rw [afterTransfers_succ]
    exact ih.trans (List.prefix_append _ _)

/-! ## A transfer does not depend on the time -/

theorem ReferenceEdge.nextTransfer_eq {x : List Byte} {r r' : Regs} {h : List Event} {e : Option Event}
    (he : ReferenceEdge r (offered x h) r' e) : nextTransfer x (r, h) = (r', h ++ e.toList) := by
  obtain ⟨rfl, rfl⟩ := he
  rfl

/-- Every clock edge without reset is a wait or the next transfer, if a token it pulls is the next one of `x`. -/
theorem Edge.wait_or_nextTransfer {x : List Byte} {s u : State} (he : Edge s u) (hr : s.pins.rst = false)
    (hnext : inXfer s = true → (inputTokens x)[(pulls s.history).length]? = some (portToken s.pins)) :
    (u.regs, u.history) = (s.regs, s.history) ∨ (u.regs, u.history) = nextTransfer x (s.regs, s.history) := by
  cases hx : inXfer s with
  | true =>
    obtain ⟨-, hp, hb, -⟩ := (inXfer_iff s).1 hx
    have hpull := reference_pull (p := offered x s.history) rfl hp hb rfl
    rw [portToken_offered (hnext hx)] at hpull
    rw [hpull.nextTransfer_eq, he.regs_of_inXfer hx, he.history_of_inXfer hx]
    exact .inr rfl
  | false =>
    cases he with
    | reset hr' => simp [hr] at hr'
    | wait => exact .inl rfl
    | leader _ hp => exact .inr (reference_leader (p := offered x s.history) rfl hp rfl).nextTransfer_eq.symm
    | sample _ hp hb _ hc =>
      exact .inr (reference_pending (p := offered x s.history) rfl hp hb rfl hc).nextTransfer_eq.symm
    | load hx' | sync hx' | name hx' | eof hx' => simp [hx] at hx'

section
variable {x : List Byte} {env : Nat → Pins} (hr : NoReset env) (hin : PresentsInOrder env x)
include hr hin

/-- A token pulled in a run on the input `x` is the next one of `x`. -/
theorem drive_pulls_next {n : Nat} (hx : inXfer (drive env n) = true) :
    (inputTokens x)[(pulls (drive env n).history).length]? = some (portToken (drive env n).pins) := by
  obtain ⟨y, ht⟩ := drive_onTrack hr hin n
  obtain ⟨-, hp, -, hvalid⟩ := (inXfer_iff _).1 hx
  obtain ⟨-, hseen, -⟩ := invariants_in_data_phase (drive_invariants env n) hp
  obtain ⟨t, hhead⟩ := exists_next_token hseen y
  have hnext := ht.next_token.trans hhead
  rw [drive_pins] at hvalid ⊢
  rw [hnext, hin n t hvalid hnext]

/-- In every cycle the run has made a number of the input's transfers. -/
theorem exists_drive_eq_afterTransfers (n : Nat) :
    ∃ k, ((drive env n).regs, (drive env n).history) = afterTransfers x k := by
  induction n with
  | zero => exact ⟨0, rfl⟩
  | succ n ih =>
    obtain ⟨k, hk⟩ := ih
    obtain ⟨u, he, hdrive⟩ := exists_drive_edge env n
    rw [hdrive]
    rcases he.wait_or_nextTransfer (by rw [drive_pins]; exact hr n) (drive_pulls_next hr hin) with hwait | hnext
    · exact ⟨k, hwait.trans hk⟩
    · exact ⟨k + 1, by rw [afterTransfers_succ, ← hk]; exact hnext⟩

end

/-- Settles O53: both records are beginnings of the input's one sequence of transfers, and in DONE they are equally
long. -/
theorem transfersDependOnTheBytesAlone : Obligations.TransfersDependOnTheBytesAlone := by
  intro x env env' hr hr' hin hin' n m
  have hcompare : (drive env n).history <+: (drive env' m).history ∨
      (drive env' m).history <+: (drive env n).history := by
    obtain ⟨k, hk⟩ := exists_drive_eq_afterTransfers hr hin n
    obtain ⟨l, hl⟩ := exists_drive_eq_afterTransfers hr' hin' m
    have hhist : (drive env n).history = (afterTransfers x k).2 := congrArg Prod.snd hk
    have hhist' : (drive env' m).history = (afterTransfers x l).2 := congrArg Prod.snd hl
    rw [hhist, hhist']
    exact (Nat.le_total k l).imp (afterTransfers_mono x) (afterTransfers_mono x)
  refine ⟨hcompare, fun hdone hdone' => ?_⟩
  obtain ⟨y, ht⟩ := drive_onTrack hr hin n
  obtain ⟨y', ht'⟩ := drive_onTrack hr' hin' m
  have hlength : (drive env n).history.length = (drive env' m).history.length :=
    (ht.length_history_done (drive_invariants env n) hdone).trans
      (ht'.length_history_done (drive_invariants env' m) hdone').symm
  rcases hcompare with h | h
  · exact h.eq_of_length hlength
  · exact (h.eq_of_length hlength.symm).symm

end Sys2Proof.Machine
end

section
/-! A fair run makes every transfer of its frame, and so reaches DONE, and an unstalled one does so in one cycle per
transfer (44_top_level.md R172, R176). -/

namespace Sys2Proof.Machine

theorem inReady_congr {s s' : State} (hregs : s'.regs = s.regs) (hrst : s'.pins.rst = s.pins.rst) :
    inReady s' = inReady s := by
  simp only [inReady, hregs, hrst]

/-- Without a transfer and without reset no register changes. -/
theorem Edge.regs_of_no_transfer {s u : State} (he : Edge s u) (hr : s.pins.rst = false) (hi : inXfer s = false)
    (ho : outXfer s = false) : u.regs = s.regs :=
  he.reference.1.trans (reference_wait hr hi (.inr ho)).1

/-- A transfer makes the record one longer. -/
theorem Edge.length_history_of_transfer {s u : State} (he : Edge s u) (h : Invariants s.regs)
    (hx : inXfer s = true ∨ outXfer s = true) : u.history.length = s.history.length + 1 := by
  rcases hx with hi | ho
  · simp [he.history_of_inXfer hi]
  · obtain ⟨v, -, hhist⟩ := he.history_of_outXfer h ho
    simp [hhist]

/-- A clock edge takes nothing back. -/
theorem Edge.length_history_ge {s u : State} (he : Edge s u) : s.history.length ≤ u.history.length := by
  rw [he.reference.2, List.length_append]
  exact Nat.le_add_right _ _

theorem length_drive_history_mono (env : Nat → Pins) {n m : Nat} (h : n ≤ m) :
    (drive env n).history.length ≤ (drive env m).history.length := by
  induction m, h using Nat.le_induction with
  | base => exact Nat.le_refl _
  | succ m _ ih =>
    obtain ⟨u, he, hdrive⟩ := exists_drive_edge env m
    rw [hdrive]
    exact ih.trans he.length_history_ge

section
variable {env : Nat → Pins} (hr : NoReset env)
include hr

/-- As long as nothing is transferred the registers stay as they are. -/
theorem drive_regs_of_no_transfer {n m : Nat} (hle : n ≤ m)
    (hnone : ∀ k, n ≤ k → inXfer (drive env k) = false ∧ outXfer (drive env k) = false) :
    (drive env m).regs = (drive env n).regs := by
  induction m, hle using Nat.le_induction with
  | base => rfl
  | succ m hle ih =>
    obtain ⟨u, he, hdrive⟩ := exists_drive_edge env m
    obtain ⟨hi, ho⟩ := hnone m hle
    rw [hdrive]
    exact (he.regs_of_no_transfer (by rw [drive_pins]; exact hr m) hi ho).trans ih

variable (hsink : SinkFair env) (hsource : SourceFair env)
include hsink hsource

/-- Before DONE a fair environment lets a transfer happen, now or later: until then the block keeps asking for its token
or presenting its sample. -/
theorem exists_transfer {n : Nat} (hp : (drive env n).regs.phase ≠ .done) :
    ∃ m, n ≤ m ∧ (inXfer (drive env m) = true ∨ outXfer (drive env m) = true) := by
  by_contra hnever
  have hnone : ∀ k, n ≤ k → inXfer (drive env k) = false ∧ outXfer (drive env k) = false := by
    intro k hk
    simpa using fun hx => hnever ⟨k, hk, hx⟩
  have hrst (k : Nat) : (drive env k).pins.rst = false := by rw [drive_pins]; exact hr k
  rcases asks_or_presents (drive_invariants env n) (hrst n) hp with hasks | hpresents
  · obtain ⟨m, hm, hvalid⟩ := hsource n hasks
    have hregs := drive_regs_of_no_transfer hr hm hnone
    have hasks' := (inReady_congr hregs ((hrst m).trans (hrst n).symm)).trans hasks
    have hidle := (hnone m hm).1
    simp [inXfer, hasks', hvalid] at hidle
  · obtain ⟨m, hm, hready⟩ := hsink n
    have hregs := drive_regs_of_no_transfer hr hm hnone
    have hpresents' := (outValid_congr hregs ((hrst m).trans (hrst n).symm)).trans hpresents
    have hidle := (hnone m hm).2
    simp [outXfer, hpresents', hready] at hidle

/-- A fair run reaches DONE or makes any number of transfers. -/
theorem exists_done_or_length (k : Nat) :
    ∃ n, (drive env n).regs.phase = .done ∨ k ≤ (drive env n).history.length := by
  induction k with
  | zero => exact ⟨0, .inr (Nat.zero_le _)⟩
  | succ k ih =>
    obtain ⟨n, hn⟩ := ih
    by_cases hp : (drive env n).regs.phase = .done
    · exact ⟨n, .inl hp⟩
    · obtain ⟨m, hm, hx⟩ := exists_transfer hr hsink hsource hp
      obtain ⟨u, he, hdrive⟩ := exists_drive_edge env m
      have hmade := he.length_history_of_transfer (drive_invariants env m) hx
      have hkept := length_drive_history_mono env hm
      refine ⟨m + 1, .inr ?_⟩
      rw [hdrive]
      exact (Nat.succ_le_succ ((hn.resolve_left hp).trans hkept)).trans hmade.ge

end

/-- Settles O52: more transfers than the frame's are never made, so the run reaches DONE, where it is complete. -/
theorem fairRunEncodesItsInput : Obligations.FairRunEncodesItsInput := by
  intro x env hr hin hsink hsource
  obtain ⟨n, hdone | hmore⟩ := exists_done_or_length hr hsink hsource (transferCount x + 1)
  · obtain ⟨-, -, hcomplete⟩ := everyRunPushesTheStartOfItsFrame x env hr hin n
    obtain ⟨hpulls, hpushes⟩ := hcomplete hdone
    exact ⟨n, hdone, hpushes, hpulls⟩
  · obtain ⟨y, ht⟩ := drive_onTrack hr hin n
    exact absurd (hmore.trans ht.length_history_le) (Nat.not_succ_le_self _)

/-- Settles O54: before DONE an unstalled run makes one transfer in every cycle. -/
theorem unstalledRunTakesOneCyclePerTransfer : Obligations.UnstalledRunTakesOneCyclePerTransfer :=
  fun _ _ hr hin hsink hsource => unstalled_done_iff hr hsink hsource hin

end Sys2Proof.Machine
end

section
/-! A frame's length and the place of its second leader (44_top_level.md R170, R174). -/

namespace Sys2Proof.Machine

/-! ## The length of a frame -/

theorem length_leaderSamples : leaderSamples.length = 11025 := List.length_replicate

theorem length_encoded (x : List Byte) : (x.flatMap enc).length = (x.map fun b => 72 - 4 * popcount b).sum := by
  simp only [List.length_flatMap, enc_length]

/-- The second leader cuts the bytes' samples, and adds its own. -/
theorem length_encodeFrame (x : List Byte) : (encodeFrame x).length = 2 * 11025 + (x.flatMap enc).length := by
  have hsplit : (x.flatMap enc).length =
      ((x.take (headerLen x)).flatMap enc).length + ((x.drop (headerLen x)).flatMap enc).length := by
    rw [← List.length_append, ← List.flatMap_append, List.take_append_drop]
  simp only [encodeFrame, List.length_append, length_leaderSamples, hsplit]
  omega

/-- Each byte has 72 samples, less four for each of its one bits. -/
theorem sum_lengths_add_four_mul_ones (x : List Byte) :
    (x.map fun b => 72 - 4 * popcount b).sum + 4 * (x.map popcount).sum = 72 * x.length := by
  induction x with
  | nil => rfl
  | cons b x ih =>
    have hle := popcount_le b
    simp only [List.map_cons, List.sum_cons, List.length_cons]
    omega

/-- Settles O49, from the length of each byte's samples. -/
theorem frameLengthCountsTheOneBits : Obligations.FrameLengthCountsTheOneBits := by
  intro x
  have hlength : (encodeFrame x).length = 2 * 11025 + (x.map fun b => 72 - 4 * popcount b).sum := by
    rw [length_encodeFrame, length_encoded]
  have hones := sum_lengths_add_four_mul_ones x
  exact ⟨hlength, by omega⟩

/-! ## The place of the second leader -/

/-- A preamble belongs to the header as a whole. -/
theorem headerLen_append {p : List Byte} (hp : Config.syncByte ∉ p) (y : List Byte) :
    headerLen (p ++ y) = p.length + headerLen y := by
  induction p with
  | nil => exact (Nat.zero_add _).symm
  | cons b p ih =>
    obtain ⟨hb, hp⟩ := not_or.1 (List.mem_cons.not.1 hp)
    rw [List.cons_append, headerLen_preamble (Ne.symm hb), ih hp, List.length_cons]
    omega

theorem frameTail_append (p : List Byte) (k : Nat) (y : List Byte) :
    frameTail (p.length + k) (p ++ y) = p.flatMap enc ++ frameTail k y := by
  simp only [frameTail, List.take_length_add_append, List.drop_length_add_append, List.flatMap_append,
    List.append_assoc]

theorem encodeFrame_append {p : List Byte} (hp : Config.syncByte ∉ p) (y : List Byte) :
    encodeFrame (p ++ y) = leaderSamples ++ (p.flatMap enc ++ frameTail (headerLen y) y) := by
  rw [encodeFrame_eq, headerLen_append hp, frameTail_append]

/-- A header that asks for more bytes than are left takes all of them. -/
theorem frameTail_min (k : Nat) (y : List Byte) : frameTail (min y.length k) y = frameTail k y := by
  have htake : y.take (min y.length k) = y.take k := List.take_eq_take_iff.2 (by omega)
  have hdrop : y.drop (min y.length k) = y.drop k := List.drop_eq_drop_iff.2 (by omega)
  rw [frameTail, htake, hdrop, frameTail]

/-- Settles O50: the preamble is the header's, the sync byte is, and so are the eighteen bytes that follow. -/
theorem secondLeaderFallsAfterTheHeader : Obligations.SecondLeaderFallsAfterTheHeader := by
  constructor
  · intro x hx
    have hframe := encodeFrame_append hx []
    rw [List.append_nil, frameTail_nil] at hframe
    rw [hframe, List.append_assoc]
  · intro p q hp
    rw [encodeFrame_append hp, headerLen_sync, frameTail_succ, frameTail_min]
    simp only [frameTail, List.append_assoc]

end Sys2Proof.Machine
end

section
/-! No reachable state faults or refuses (60_exceptions.md R190). -/

namespace Sys2Proof.Machine

/-- Settles O36: a state with the invariants has a next state, whatever its inputs, and every reachable state has the
invariants. -/
theorem noReachableStateStops : Obligations.NoReachableStateStops := by
  intro env n
  obtain ⟨u, -, hstep⟩ := exists_step (drive_invariants env n)
  exact ⟨tick u, hstep⟩

end Sys2Proof.Machine
end

section
/-! Reset and the hazards of the port protocol (70_reset_and_hazards.md). -/

namespace Sys2Proof.Machine

/-! ## The step under reset -/

theorem step_reset {s : State} (hr : s.pins.rst = true) : step s = .next (tick (takeReset s)) := by
  rw [step_eq, exec_reset _ hr]
  rfl

/-- Settles O25: every operation answers for reset before its own edge, and so does the one the step executes. -/
theorem resetWinsOverEverything : Obligations.ResetWinsOverEverything :=
  fun _ hr => ⟨fun i => exec_reset i hr, _, step_reset hr, rfl, rfl⟩

/-- Settles O26: `rst` masks the three handshake outputs, and the step is the reset, which keeps the record. -/
theorem noTransferDuringReset : Obligations.NoTransferDuringReset := by
  intro s t hr hstep
  obtain rfl : tick (takeReset s) = t := by simpa [step_reset hr] using hstep
  exact ⟨by simp [inReady, hr], by simp [outValid, hr], by simp [done, hr], rfl⟩

/-! ## No combinational path from an input other than `rst` -/

theorem done_congr {s s' : State} (hregs : s'.regs = s.regs) (hrst : s'.pins.rst = s.pins.rst) : done s' = done s := by
  simp only [done, hregs, hrst]

/-- Beside the registers and `rst` only the cycle number, at the free value, reaches `out_data` (log 7). -/
theorem outData_congr_of_cycle {s s' : State} (hregs : s'.regs = s.regs) (hrst : s'.pins.rst = s.pins.rst)
    (hcycle : s'.cycle = s.cycle) : outData s' = outData s := by
  simp only [outData, outValid_congr hregs hrst, hregs, hcycle]

/-- Settles O27: each output's definition reads nothing but the registers and `rst`, and a presented sample is in one of
the cases of R35 that give it a value. -/
theorem outputsDependOnRegistersAndResetOnly : Obligations.OutputsDependOnRegistersAndResetOnly :=
  fun _ _ hregs hrst => ⟨inReady_congr hregs hrst, outValid_congr hregs hrst, done_congr hregs hrst,
    outData_congr hregs hrst, outData_congr_of_cycle hregs hrst⟩

/-! ## Two blocks with the same registers and the same inputs -/

/-- What a step reads of the state to choose the next registers and the transfer: all but the record and the cycle. -/
def SameBlock (s s' : State) : Prop := s.regs = s'.regs ∧ s.pins = s'.pins ∧ s.coming = s'.coming

/-- A reset wipes out every difference but the record and the cycle number. -/
theorem sameBlock_after_reset {s s' : State} (hcoming : s.coming = s'.coming) :
    SameBlock (tick (takeReset s)) (tick (takeReset s')) := by
  simp [SameBlock, hcoming]

/-- Two such blocks step alike: both edges are the flat step function's (44_top_level.md R171). -/
theorem SameBlock.step {s s' : State} (hsame : SameBlock s s') (h : Invariants s.regs) :
    ∃ t t' e, step s = .next t ∧ step s' = .next t' ∧ SameBlock t t' ∧ Invariants t.regs ∧
      t.history = s.history ++ e ∧ t'.history = s'.history ++ e := by
  obtain ⟨hregs, hpins, hcoming⟩ := hsame
  obtain ⟨u, he, hstep⟩ := exists_step h
  obtain ⟨u', he', hstep'⟩ := exists_step (s := s') (hregs ▸ h)
  obtain ⟨hu, hhist⟩ := he.reference
  obtain ⟨hu', hhist'⟩ := he'.reference
  rw [← hregs, ← hpins] at hu' hhist'
  have hnext : u.coming = u'.coming := he.coming_eq.trans (hcoming.trans he'.coming_eq.symm)
  exact ⟨tick u, tick u', _, hstep, hstep', ⟨hu.trans hu'.symm, by simp [hnext], by simp [hnext]⟩,
    he.invariants h, hhist, hhist'⟩

/-- And so they run alike, for any number of steps. -/
theorem SameBlock.run (n : Nat) : ∀ {s s' : State}, SameBlock s s' → Invariants s.regs →
    ∃ t t' h, run n s = .next t ∧ run n s' = .next t' ∧ t.regs = t'.regs ∧
      t.history = s.history ++ h ∧ t'.history = s'.history ++ h := by
  induction n with
  | zero => exact fun {s s'} hsame _ => ⟨s, s', [], run_zero s, run_zero s', hsame.1, by simp, by simp⟩
  | succ n ih =>
    intro s s' hsame h
    obtain ⟨u, u', e, hstep, hstep', hsame', hu, hhist, hhist'⟩ := hsame.step h
    obtain ⟨t, t', k, hrun, hrun', hregs, hk, hk'⟩ := ih hsame' hu
    exact ⟨t, t', e ++ k, (run_step hstep).trans hrun, (run_step hstep').trans hrun', hregs,
      by rw [hk, hhist, List.append_assoc], by rw [hk', hhist', List.append_assoc]⟩

/-- Settles O43: the first step resets both blocks, which makes them the same but for their records, and from there they
run alike. -/
theorem nothingSurvivesAReset : Obligations.NothingSurvivesAReset := by
  intro n s s' hr hr' hcoming
  rw [run_step (step_reset hr), run_step (step_reset hr')]
  exact (sameBlock_after_reset hcoming).run n reset_invariants

/-! ## A source that never presents EOF -/

/-- Only the pull of EOF sets `eof_seen` (10_state.md R29). -/
theorem Edge.eofSeen_unset {s u : State} (he : Edge s u) (h : s.regs.eofSeen = false)
    (hsource : s.pins.inValid = true → s.pins.inEof = false) : u.regs.eofSeen = false := by
  cases he with
  | reset => rfl
  | eof hx heof =>
    obtain ⟨-, -, -, hvalid⟩ := (inXfer_iff s).1 hx
    simp [hsource hvalid] at heof
  | _ => simpa using h

theorem drive_eofSeen_unset {env : Nat → Pins} (hsource : ∀ n, (env n).inValid = true → (env n).inEof = false)
    (n : Nat) : (drive env n).regs.eofSeen = false := by
  induction n with
  | zero => rfl
  | succ n ih =>
    obtain ⟨u, he, hdrive⟩ := exists_drive_edge env n
    rw [hdrive]
    exact he.eofSeen_unset ih (by simpa using hsource n)

/-- Settles O55: DONE holds `eof_seen` (R39 I10), which such a source never sets. -/
theorem withoutEofTheRunNeverEnds : Obligations.WithoutEofTheRunNeverEnds := by
  intro env hsource n
  obtain ⟨-, -, -, -, -, -, -, -, hDone, -⟩ := drive_invariants env n
  have hp : (drive env n).regs.phase ≠ .done := fun hp => by
    obtain ⟨hseen, -⟩ := hDone hp
    simp [drive_eofSeen_unset hsource n] at hseen
  simp [done, hp]

end Sys2Proof.Machine
end
